-- ==== Sys2Proof/Word.lean ====
section
/-! DEFINITION. The widths of the machine: the word, the address, the opcode, and the constants of
`spec/00_scope.md` rule R8. -/

namespace Sys2Proof

/-- An 18-bit word: a memory cell, AC or IO (R8 WORD_WIDTH, R29). -/
abbrev Word := BitVec 18

/-- A 12-bit word address: PC, MA or an address field (R8 ADDR_WIDTH, R43). -/
abbrev Addr := BitVec 12

/-- A 5-bit opcode value (R8 OPCODE_WIDTH, R61). -/
abbrev Opcode := BitVec 5

/-- DATA_MASK = 2^18 - 1 (R8); read as a number it is -0 (R14). -/
def dataMask : Word := 0o777777#18

/-- MEM_WORDS, the size of core memory (R8, R40). -/
def memWords : Nat := 4096

end Sys2Proof
end

