-- ==== Sys2Proof/Syntax.lean ====
section
/-! DEFINITION. The instructions: one constructor per row of `spec/opcode_table.json`, in the
table's order, each with the two other fields of the one format (`spec/30_encoding.md` R61). -/

namespace Sys2Proof

/-- One decoded instruction: the opcode is the constructor, `ind` the indirect bit i and `a` the
12-bit address field (R61, R62).  Every value of `ind` and `a` is legal for every opcode (R67). -/
inductive Instr where
  /-- Opcode 0o00, undefined: it halts (R160). -/
  | undefined00 (ind : Bool) (a : Addr)
  /-- Opcode 0o01. AND: AC <- AC & C(Y) (R100). -/
  | and (ind : Bool) (a : Addr)
  /-- Opcode 0o02. IOR: AC <- AC | C(Y) (R101). -/
  | ior (ind : Bool) (a : Addr)
  /-- Opcode 0o03. XOR: AC <- AC ^ C(Y) (R102). -/
  | xor (ind : Bool) (a : Addr)
  /-- Opcode 0o04. XCT: execute the word at Y (R110). -/
  | xct (ind : Bool) (a : Addr)
  /-- Opcode 0o05, undefined: it halts (R160). -/
  | undefined05 (ind : Bool) (a : Addr)
  /-- Opcode 0o06, undefined: it halts (R160). -/
  | undefined06 (ind : Bool) (a : Addr)
  /-- Opcode 0o07, undefined: it halts (R160). -/
  | undefined07 (ind : Bool) (a : Addr)
  /-- Opcode 0o10. LAC: AC <- C(Y) (R120). -/
  | lac (ind : Bool) (a : Addr)
  /-- Opcode 0o11, undefined: it halts (R160). -/
  | undefined11 (ind : Bool) (a : Addr)
  /-- Opcode 0o12. DAC: C(Y) <- AC (R121). -/
  | dac (ind : Bool) (a : Addr)
  /-- Opcode 0o13, undefined: it halts (R160). -/
  | undefined13 (ind : Bool) (a : Addr)
  /-- Opcode 0o14, undefined: it halts (R160). -/
  | undefined14 (ind : Bool) (a : Addr)
  /-- Opcode 0o15, undefined: it halts (R160). -/
  | undefined15 (ind : Bool) (a : Addr)
  /-- Opcode 0o16, undefined: it halts (R160). -/
  | undefined16 (ind : Bool) (a : Addr)
  /-- Opcode 0o17, undefined: it halts (R160). -/
  | undefined17 (ind : Bool) (a : Addr)
  /-- Opcode 0o20, undefined: it halts (R160). -/
  | undefined20 (ind : Bool) (a : Addr)
  /-- Opcode 0o21. SUB: AC <- AC - C(Y), ones'-complement (R132). -/
  | sub (ind : Bool) (a : Addr)
  /-- Opcode 0o22, undefined: it halts (R160). -/
  | undefined22 (ind : Bool) (a : Addr)
  /-- Opcode 0o23, undefined: it halts (R160). -/
  | undefined23 (ind : Bool) (a : Addr)
  /-- Opcode 0o24, undefined: it halts (R160). -/
  | undefined24 (ind : Bool) (a : Addr)
  /-- Opcode 0o25, undefined: it halts (R160). -/
  | undefined25 (ind : Bool) (a : Addr)
  /-- Opcode 0o26, undefined: it halts (R160). -/
  | undefined26 (ind : Bool) (a : Addr)
  /-- Opcode 0o27, undefined: it halts (R160). -/
  | undefined27 (ind : Bool) (a : Addr)
  /-- Opcode 0o30, undefined: it halts (R160). -/
  | undefined30 (ind : Bool) (a : Addr)
  /-- Opcode 0o31, undefined: it halts (R160). -/
  | undefined31 (ind : Bool) (a : Addr)
  /-- Opcode 0o32, undefined: it halts (R160). -/
  | undefined32 (ind : Bool) (a : Addr)
  /-- Opcode 0o33, undefined: it halts (R160). -/
  | undefined33 (ind : Bool) (a : Addr)
  /-- Opcode 0o34, undefined: it halts (R160). -/
  | undefined34 (ind : Bool) (a : Addr)
  /-- Opcode 0o35. IOT: (AC, IO) <- IOT_HOOK(a, i, AC, IO) (R150). -/
  | iot (ind : Bool) (a : Addr)
  /-- Opcode 0o36, undefined: it halts (R160). -/
  | undefined36 (ind : Bool) (a : Addr)
  /-- Opcode 0o37, undefined: it halts (R160). -/
  | undefined37 (ind : Bool) (a : Addr)
  deriving DecidableEq, Repr

/-- The indirect bit of an instruction (R61 field i). -/
def Instr.indirect : Instr → Bool
  | .undefined00 ind _ => ind
  | .and ind _ => ind
  | .ior ind _ => ind
  | .xor ind _ => ind
  | .xct ind _ => ind
  | .undefined05 ind _ => ind
  | .undefined06 ind _ => ind
  | .undefined07 ind _ => ind
  | .lac ind _ => ind
  | .undefined11 ind _ => ind
  | .dac ind _ => ind
  | .undefined13 ind _ => ind
  | .undefined14 ind _ => ind
  | .undefined15 ind _ => ind
  | .undefined16 ind _ => ind
  | .undefined17 ind _ => ind
  | .undefined20 ind _ => ind
  | .sub ind _ => ind
  | .undefined22 ind _ => ind
  | .undefined23 ind _ => ind
  | .undefined24 ind _ => ind
  | .undefined25 ind _ => ind
  | .undefined26 ind _ => ind
  | .undefined27 ind _ => ind
  | .undefined30 ind _ => ind
  | .undefined31 ind _ => ind
  | .undefined32 ind _ => ind
  | .undefined33 ind _ => ind
  | .undefined34 ind _ => ind
  | .iot ind _ => ind
  | .undefined36 ind _ => ind
  | .undefined37 ind _ => ind

/-- The address field of an instruction (R61 field a). -/
def Instr.address : Instr → Addr
  | .undefined00 _ a => a
  | .and _ a => a
  | .ior _ a => a
  | .xor _ a => a
  | .xct _ a => a
  | .undefined05 _ a => a
  | .undefined06 _ a => a
  | .undefined07 _ a => a
  | .lac _ a => a
  | .undefined11 _ a => a
  | .dac _ a => a
  | .undefined13 _ a => a
  | .undefined14 _ a => a
  | .undefined15 _ a => a
  | .undefined16 _ a => a
  | .undefined17 _ a => a
  | .undefined20 _ a => a
  | .sub _ a => a
  | .undefined22 _ a => a
  | .undefined23 _ a => a
  | .undefined24 _ a => a
  | .undefined25 _ a => a
  | .undefined26 _ a => a
  | .undefined27 _ a => a
  | .undefined30 _ a => a
  | .undefined31 _ a => a
  | .undefined32 _ a => a
  | .undefined33 _ a => a
  | .undefined34 _ a => a
  | .iot _ a => a
  | .undefined36 _ a => a
  | .undefined37 _ a => a

end Sys2Proof
end

