-- ==== Sys2Proof/WellFormed.lean ====
section
/-! DEFINITION. The width checks of the instruction fields (`spec/30_encoding.md` R61, R63 and
`spec/10_state.md` R29).  They have something to refuse on a triple of natural numbers; the typed
`Instr` cannot hold an out-of-width field (`spec/93_implementation_defined.md` U7). -/

namespace Sys2Proof

/-- The triple (opcode, indirect, address) as plain natural numbers (R12, R62). -/
structure RawInstr where
  opcode : Nat
  indirect : Nat
  address : Nat
  deriving DecidableEq, Repr

/-- op in 0..31 (R63). -/
def RawInstr.opcodeFits (r : RawInstr) : Bool := r.opcode < 32

/-- i in 0..1 (R63). -/
def RawInstr.indirectFits (r : RawInstr) : Bool := r.indirect < 2

/-- a in 0..4095 (R63). -/
def RawInstr.addressFits (r : RawInstr) : Bool := r.address < memWords

/-- The triples encode takes (R63).  No further check: no value of a field is reserved, for any
opcode (R67). -/
def RawInstr.wf (r : RawInstr) : Bool := r.opcodeFits && r.indirectFits && r.addressFits

/-- The check on a typed instruction: its address field lies in memory.  Its type makes it true of
every instruction (R67: every defined opcode accepts every value of i and a). -/
def Instr.wf (i : Instr) : Bool := i.address.toNat < memWords

end Sys2Proof
end

