-- ==== Sys2Proof/Decode.lean ====
section
/-! DEFINITION. The decoder and the encoder (`spec/30_encoding.md` R61 to R68).  The decoder is
total on the 2^18 words: no word is rejected, an undefined opcode decodes to its own constructor. -/

namespace Sys2Proof

/-- The opcode field w[17:13] (R62). -/
def opcodeField (w : Word) : Opcode := w.extractLsb' 13 5

/-- The indirect bit w[12] (R62). -/
def indirectField (w : Word) : Bool := w.getLsbD 12

/-- The address field w[11:0] (R62); also the address in a pointer word (R83). -/
def addressField (w : Word) : Addr := w.extractLsb' 0 12

/-- The triple of R62 as natural numbers, by the source's own formulas. -/
def decodeRaw (w : Word) : RawInstr where
  opcode := w.toNat >>> 13
  indirect := (w.toNat >>> 12) &&& 1
  address := w.toNat &&& 0xFFF

/-- The instruction with these three fields: the opcode map of R65 and R66.  An opcode is below 32,
so the last arm is reached by 0o37 alone. -/
def instrOf (op : Opcode) (ind : Bool) (a : Addr) : Instr :=
  match op.toNat with
  | 0o00 => .undefined00 ind a
  | 0o01 => .and ind a
  | 0o02 => .ior ind a
  | 0o03 => .xor ind a
  | 0o04 => .xct ind a
  | 0o05 => .undefined05 ind a
  | 0o06 => .undefined06 ind a
  | 0o07 => .undefined07 ind a
  | 0o10 => .lac ind a
  | 0o11 => .undefined11 ind a
  | 0o12 => .dac ind a
  | 0o13 => .undefined13 ind a
  | 0o14 => .undefined14 ind a
  | 0o15 => .undefined15 ind a
  | 0o16 => .undefined16 ind a
  | 0o17 => .undefined17 ind a
  | 0o20 => .undefined20 ind a
  | 0o21 => .sub ind a
  | 0o22 => .undefined22 ind a
  | 0o23 => .undefined23 ind a
  | 0o24 => .undefined24 ind a
  | 0o25 => .undefined25 ind a
  | 0o26 => .undefined26 ind a
  | 0o27 => .undefined27 ind a
  | 0o30 => .undefined30 ind a
  | 0o31 => .undefined31 ind a
  | 0o32 => .undefined32 ind a
  | 0o33 => .undefined33 ind a
  | 0o34 => .undefined34 ind a
  | 0o35 => .iot ind a
  | 0o36 => .undefined36 ind a
  | _ => .undefined37 ind a

/-- decode(w) of R62, the opcode read as its constructor.  Pure and total on every 18-bit word. -/
def decode (w : Word) : Instr :=
  instrOf (opcodeField w) (indirectField w) (addressField w)

/-- The opcode value of an instruction (R65, R66). -/
def Instr.opcode : Instr → Opcode
  | .undefined00 _ _ => 0o00#5
  | .and _ _ => 0o01#5
  | .ior _ _ => 0o02#5
  | .xor _ _ => 0o03#5
  | .xct _ _ => 0o04#5
  | .undefined05 _ _ => 0o05#5
  | .undefined06 _ _ => 0o06#5
  | .undefined07 _ _ => 0o07#5
  | .lac _ _ => 0o10#5
  | .undefined11 _ _ => 0o11#5
  | .dac _ _ => 0o12#5
  | .undefined13 _ _ => 0o13#5
  | .undefined14 _ _ => 0o14#5
  | .undefined15 _ _ => 0o15#5
  | .undefined16 _ _ => 0o16#5
  | .undefined17 _ _ => 0o17#5
  | .undefined20 _ _ => 0o20#5
  | .sub _ _ => 0o21#5
  | .undefined22 _ _ => 0o22#5
  | .undefined23 _ _ => 0o23#5
  | .undefined24 _ _ => 0o24#5
  | .undefined25 _ _ => 0o25#5
  | .undefined26 _ _ => 0o26#5
  | .undefined27 _ _ => 0o27#5
  | .undefined30 _ _ => 0o30#5
  | .undefined31 _ _ => 0o31#5
  | .undefined32 _ _ => 0o32#5
  | .undefined33 _ _ => 0o33#5
  | .undefined34 _ _ => 0o34#5
  | .iot _ _ => 0o35#5
  | .undefined36 _ _ => 0o36#5
  | .undefined37 _ _ => 0o37#5

/-- encode(op, i, a) = (op << 13) | (i << 12) | a (R63). -/
def encodeFields (op : Opcode) (ind : Bool) (a : Addr) : Word :=
  (op.setWidth 18 <<< 13) ||| ((BitVec.ofBool ind).setWidth 18 <<< 12) ||| a.setWidth 18

/-- The word of an instruction (R63). -/
def encode (i : Instr) : Word := encodeFields i.opcode i.indirect i.address

/-- encode of R63 on a triple of natural numbers; only a triple that passes `RawInstr.wf` is meant,
and that any other gives the low 18 bits is the model's choice (DESIGN CHOICE, assumption log 17). -/
def encodeRaw (r : RawInstr) : Word :=
  BitVec.ofNat 18 ((r.opcode <<< 13) ||| (r.indirect <<< 12) ||| r.address)

/-- Whether the opcode is one of the 24 undefined values (R66). -/
def Instr.isUndefined : Instr → Bool
  | .undefined00 _ _ => true
  | .and _ _ => false
  | .ior _ _ => false
  | .xor _ _ => false
  | .xct _ _ => false
  | .undefined05 _ _ => true
  | .undefined06 _ _ => true
  | .undefined07 _ _ => true
  | .lac _ _ => false
  | .undefined11 _ _ => true
  | .dac _ _ => false
  | .undefined13 _ _ => true
  | .undefined14 _ _ => true
  | .undefined15 _ _ => true
  | .undefined16 _ _ => true
  | .undefined17 _ _ => true
  | .undefined20 _ _ => true
  | .sub _ _ => false
  | .undefined22 _ _ => true
  | .undefined23 _ _ => true
  | .undefined24 _ _ => true
  | .undefined25 _ _ => true
  | .undefined26 _ _ => true
  | .undefined27 _ _ => true
  | .undefined30 _ _ => true
  | .undefined31 _ _ => true
  | .undefined32 _ _ => true
  | .undefined33 _ _ => true
  | .undefined34 _ _ => true
  | .iot _ _ => false
  | .undefined36 _ _ => true
  | .undefined37 _ _ => true

/-- What the decoder reads from the one-word instruction with bits `w`, bit 0 the least significant.
Every instruction is one 18-bit word (R60), so `nbits` adds nothing: a bit above it is 0 in `w`. A
number that does not fit a word is no instruction (DESIGN CHOICE, assumption log 17). -/
def decodeTableWord (_nbits w : Nat) : Option Instr :=
  if w < 2 ^ 18 then some (decode (BitVec.ofNat 18 w)) else none

end Sys2Proof
end

