-- ==== Sys2Proof/Machine/State.lean ====
section
/-! DEFINITION. The machine state (`spec/10_state.md` R20): core memory, the registers, the flags,
and nothing else; the reasons a step can stop; the state after reset (`spec/70_reset_and_hazards.md`
R190). -/

namespace Sys2Proof.Machine

/-- One word of core memory at an address.  The addressable unit is the 18-bit word and there are
no bytes (R40, R41), so the host's byte cell does not fit (assumption log 1). -/
abbrev Cell := Nat × Word

/-- Core memory: the words that differ from what an unlisted address reads as, by rising address.
`Memory.wf` (Ops.lean) is the canonical form. -/
abbrev Memory := List Cell

/-- The tuple of R20. -/
structure State where
  /-- MEM[0..4095] (R40). -/
  mem : Memory
  /-- AC, the accumulator (R21). -/
  ac : Word
  /-- IO, the I/O register (R22). -/
  io : Word
  /-- PC, the program counter (R23). -/
  pc : Addr
  /-- MA, the address of the last memory access (R24). -/
  ma : Addr
  /-- IR, the opcode of the last word decoded (R25). -/
  ir : Opcode
  /-- OV, the sticky overflow flag (R26). -/
  ov : Bool
  /-- HLT, the halt flag (R27). -/
  hlt : Bool
  /-- XF, the mark of the XctCycle fault (R28). -/
  xf : Bool
  deriving DecidableEq, Repr

/-- Why no step is taken.  Both say that HLT was already set: a halted state has no step (R80). No
instruction raises either one, so neither cuts a run short. -/
inductive Fault where
  /-- Raised by `step` alone, in a state with HLT set and XF clear: the run ended normally (R92).
  Safe: the block takes no step here either (R80). -/
  | halted
  /-- Raised by `step` alone, in a state with HLT and XF set: the run was stopped by the XCT
  recursion guard (R92, R113).  Safe: the block takes no step here either (R80). -/
  | faulted
  deriving DecidableEq, Repr

/-- An instruction the model gives no meaning. -/
inductive Refusal where
  /-- For an arm of `exec` without a meaning.  Safe.  No arm of this model uses it. -/
  | notModelled (mnemonic : String)
  deriving DecidableEq, Repr

/-- The state after reset (R190): every register zero, every flag false.  MEM is the parameter MEM0
of the launch; this one lists no word, so every word reads as `Memory.unlisted` (assumption log 2).
`State.launch` starts from any image. -/
def State.reset : State where
  mem := []
  ac := 0
  io := 0
  pc := 0
  ma := 0
  ir := 0
  ov := false
  hlt := false
  xf := false

end Sys2Proof.Machine
end

