-- ==== Sys2Proof/Machine/Ops.lean ====
section
/-! DEFINITION. The operations every instruction shares: core memory (`spec/20_memory.md`), the
register and flag writes, the PC advance (`spec/40_cycle.md` R86), the two stop events
(`spec/60_exceptions.md` R170), and the frame of an outer instruction (R81, R82, R88). -/

namespace Sys2Proof.Machine

/-- What an address with no entry reads as (assumption log 2: the spec leaves MEM0 to the launch).
-/
def Memory.unlisted : Word := 0

/-- The word of the first entry at key `k`. -/
def Memory.lookup (k : Nat) : Memory → Word
  | [] => Memory.unlisted
  | (j, v) :: m => if j = k then v else Memory.lookup k m

/-- Set key `k` to `v`, keeping the keys rising and dropping an entry that says nothing. -/
def Memory.update (k : Nat) (v : Word) : Memory → Memory
  | [] => if v = Memory.unlisted then [] else [(k, v)]
  | (j, u) :: m =>
    if k < j then (if v = Memory.unlisted then (j, u) :: m else (k, v) :: (j, u) :: m)
    else if k = j then (if v = Memory.unlisted then m else (k, v) :: m)
    else (j, u) :: Memory.update k v m

/-- MemRead(addr, 1) of R44: it cannot fail and changes nothing. -/
def Memory.read (m : Memory) (a : Addr) : Word := Memory.lookup a.toNat m

/-- MemWrite(addr, 1, v) of R45. -/
def Memory.write (m : Memory) (a : Addr) (v : Word) : Memory := Memory.update a.toNat v m

/-- The keys rise from `lo`, lie in memory, and no entry equals what its absence reads as. -/
def Memory.wfFrom (lo : Nat) : Memory → Bool
  | [] => true
  | (k, v) :: m =>
    decide (lo ≤ k) && decide (k < memWords) && decide (v ≠ Memory.unlisted) &&
      Memory.wfFrom (k + 1) m

/-- The canonical form of memory: equal contents are equal data. -/
def Memory.wf (m : Memory) : Bool := Memory.wfFrom 0 m

/-- Write `ws` at consecutive addresses from `a`, wrapping modulo 4096 (R43): what the external
loader does with a program (R54, R192).  The load address is the loader's own. -/
def Memory.load (m : Memory) (a : Addr) : List Word → Memory
  | [] => m
  | w :: ws => Memory.load (m.write a w) (a + 1) ws

/-! ## Register and flag writes -/

def State.setMem (s : State) (m : Memory) : State := { s with mem := m }
def State.setAc (s : State) (v : Word) : State := { s with ac := v }
def State.setIo (s : State) (v : Word) : State := { s with io := v }
def State.setPc (s : State) (a : Addr) : State := { s with pc := a }
def State.setMa (s : State) (a : Addr) : State := { s with ma := a }
def State.setIr (s : State) (op : Opcode) : State := { s with ir := op }
def State.setOv (s : State) (b : Bool) : State := { s with ov := b }
def State.setHlt (s : State) (b : Bool) : State := { s with hlt := b }
def State.setXf (s : State) (b : Bool) : State := { s with xf := b }

/-- The state a run starts from, given the initial memory MEM0 (R9, R190). -/
def State.launch (mem0 : Memory) : State := State.reset.setMem mem0

/-! ## Control -/

/-- The word the next step executes, the read of R81. -/
def State.fetchWord (s : State) : Word := s.mem.read s.pc

/-- Advance(d) of R86: only the outer instruction moves PC, by one, modulo 4096. -/
def State.advance (d : Nat) (s : State) : State := if d = 0 then s.setPc (s.pc + 1) else s

/-- The two stop events, and no others (R170). -/
inductive StopEvent where
  | undefinedOpcode
  | xctCycle
  deriving DecidableEq, Repr

/-- A stop event sets HLT, and XctCycle sets XF as well; it saves no state, switches no mode and
vectors nowhere (R171, R113, R160).  There is no return from a stop (R174). -/
def State.stop (e : StopEvent) (s : State) : State :=
  match e with
  | .undefinedOpcode => s.setHlt true
  | .xctCycle => (s.setHlt true).setXf true

/-- What stands around an instruction fetched at PC (R88): MA <- PC (R81) and IR <- op (R82) before
it; and where it raises XctCycle (`none`), the state from before the step with the stop's marks. -/
def runOuter (op : Opcode) (body : State → Option State) (s : State) :
    Host.Outcome State Fault Refusal :=
  match body ((s.setMa s.pc).setIr op) with
  | some t => .next t
  | none => .next (s.stop .xctCycle)

end Sys2Proof.Machine
end

