-- ==== Sys2Proof/Machine/Flags.lean ====
section
/-! DEFINITION. The sign and value of a word (`spec/00_scope.md` R14), ones'-complement subtraction
(`spec/44_arithmetic.md` R130 to R132) and the overflow condition (R133), the only flag
computation of the machine. -/

namespace Sys2Proof.Machine

/-- Bit 17, the sign of a word (R14; PRESUMED by the spec itself, assumption log 5). -/
def isNegative (x : Word) : Bool := x.getLsbD 17

/-- ~x, the ones'-complement negation (R12, R130). -/
def negate (x : Word) : Word := x ^^^ dataMask

/-- val(x), the signed number a word stands for (R14); 0 for both zeros. -/
def val (x : Word) : Int := if isNegative x then -((negate x).toNat : Int) else (x.toNat : Int)

/-- The end-around-carry sum of two words (R131), from their natural-number sum. -/
def endAroundSum (x y : Word) : Word :=
  let s := x.toNat + y.toNat
  if s > dataMask.toNat then BitVec.ofNat 18 ((s + 1) % 2 ^ 18) else BitVec.ofNat 18 s

/-- AC - C(Y) by steps 1 to 4 of R132: complement, add, carry around, complement. -/
def subtract (ac c : Word) : Word := negate (endAroundSum (negate ac) c)

/-- ov_cond(a, c, r) of R133: the operands differ in sign and the result differs from AC's. -/
def ovCond (a c r : Word) : Bool :=
  (isNegative a != isNegative c) && (isNegative r != isNegative a)

/-- OV <- OV or ov_cond (R26, R133): sticky. -/
def State.orOv (s : State) (b : Bool) : State := s.setOv (s.ov || b)

end Sys2Proof.Machine
end

