-- ==== Sys2Proof/Machine/Operands.lean ====
section
/-! DEFINITION. The two operand forms, direct and one-level indirect (`spec/30_encoding.md` R64;
`spec/40_cycle.md` R83 to R85). -/

namespace Sys2Proof.Machine

/-- The value of EA(i, a) in memory `m` (R83): `a` itself, or the low 12 bits of the word at `a`.
One level only: bit 12 of the pointer is not looked at. -/
def effAddr (ind : Bool) (a : Addr) (m : Memory) : Addr :=
  if ind then addressField (m.read a) else a

/-- EA(i, a) with its effect (R83): the pointer read writes MA. -/
def resolve (ind : Bool) (a : Addr) (s : State) : Addr × State :=
  if ind then (addressField (s.mem.read a), s.setMa a) else (a, s)

/-- C(Y) with its effect (R85): the word at Y, MA <- Y. -/
def readOperand (y : Addr) (s : State) : Word × State := (s.mem.read y, s.setMa y)

/-- The store of DAC with its effect (R85, R121): MEM[Y] <- v, MA <- Y. -/
def writeOperand (y : Addr) (v : Word) (s : State) : State :=
  (s.setMem (s.mem.write y v)).setMa y

/-- EA then C(Y), the start of every instruction that reads its operand (R100 to R132). -/
def operand (ind : Bool) (a : Addr) (s : State) : Word × State :=
  readOperand (resolve ind a s).1 (resolve ind a s).2

end Sys2Proof.Machine
end

