-- ==== Sys2Proof/Machine/Arithmetic.lean ====
section
/-! DEFINITION. SUB (`spec/44_arithmetic.md`). -/

namespace Sys2Proof.Machine

/-- SUB(i, a, d) of R132: OV is computed from the old AC, before AC is written. -/
def subAt (ind : Bool) (a : Addr) (d : Nat) (s : State) : State :=
  let (c, t) := operand ind a s
  let r := subtract t.ac c
  ((t.orOv (ovCond t.ac c r)).setAc r).advance d

/-- SUB as the outer instruction. -/
def execSub (ind : Bool) (a : Addr) (s : State) : Host.Outcome State Fault Refusal :=
  runOuter (Instr.sub ind a).opcode (fun t => some (subAt ind a 0 t)) s

end Sys2Proof.Machine
end

