-- ==== Sys2Proof/Config.lean ====
section
/-! DEFINITION. The parameters of the step (`spec/00_scope.md` R9, `spec/10_state.md` R32) and the
values the machine of this package gives them. -/

namespace Sys2Proof

/-- The I/O collaborator: (a, i, AC, IO) gives (AC', IO') (R9, R151).  It sees and answers nothing
else, so no hook can touch memory, PC, MA, IR or a flag. -/
abbrev IotHook := Addr → Bool → Word → Word → Word × Word

/-- The parameters of the step: the I/O hook and the deepest XCT nesting a step may enter, a
natural number of at least 1 (R9).  The third parameter of R9, the initial memory MEM0, is the
memory of the state a run starts from (`State.launch`). -/
structure Params where
  iotHook : IotHook
  xctDepthLimit : Nat
  one_le_limit : 1 ≤ xctDepthLimit

/-- The default hook: no collaborator is attached and IOT is a no-op (R9, R151). -/
def Config.identityHook : IotHook := fun _ _ ac io => (ac, io)

/-- The default XCT_DEPTH_LIMIT (R9); every larger limit gives the same machine (R114). -/
def Config.xctDepthLimit : Nat := 4095

/-- The parameters `exec` and `step` run with: the defaults of R9 (assumption log 3 and 4).  A
claim that must hold whatever device is attached is stated over `execWith` and `stepWith`. -/
def Config.params : Params where
  iotHook := Config.identityHook
  xctDepthLimit := Config.xctDepthLimit
  one_le_limit := by decide

end Sys2Proof
end

