-- ==== Sys2Proof/Machine/InputOutput.lean ====
section
/-! DEFINITION. IOT (`spec/45_iot.md`). -/

namespace Sys2Proof.Machine

/-- IOT(i, a, d) of R150: the hook gets the raw a and i, AC and IO, and answers new AC and IO.  No
effective address is computed and no memory is accessed (R84). -/
def iotAt (p : Params) (ind : Bool) (a : Addr) (d : Nat) (s : State) : State :=
  let (ac', io') := p.iotHook a ind s.ac s.io
  ((s.setAc ac').setIo io').advance d

/-- IOT as the outer instruction, with the default hook of R9 (assumption log 3). -/
def execIot (ind : Bool) (a : Addr) (s : State) : Host.Outcome State Fault Refusal :=
  runOuter (Instr.iot ind a).opcode (fun t => some (iotAt Config.params ind a 0 t)) s

end Sys2Proof.Machine
end

