-- ==== Sys2Proof/Machine/LoadStore.lean ====
section
/-! DEFINITION. LAC and DAC (`spec/43_load_store.md`). -/

namespace Sys2Proof.Machine

/-- LAC(i, a, d) of R120. -/
def lacAt (ind : Bool) (a : Addr) (d : Nat) (s : State) : State :=
  let (c, t) := operand ind a s
  (t.setAc c).advance d

/-- DAC(i, a, d) of R121: it does not read C(Y). -/
def dacAt (ind : Bool) (a : Addr) (d : Nat) (s : State) : State :=
  let (y, t) := resolve ind a s
  (writeOperand y t.ac t).advance d

/-- LAC as the outer instruction. -/
def execLac (ind : Bool) (a : Addr) (s : State) : Host.Outcome State Fault Refusal :=
  runOuter (Instr.lac ind a).opcode (fun t => some (lacAt ind a 0 t)) s

/-- DAC as the outer instruction. -/
def execDac (ind : Bool) (a : Addr) (s : State) : Host.Outcome State Fault Refusal :=
  runOuter (Instr.dac ind a).opcode (fun t => some (dacAt ind a 0 t)) s

end Sys2Proof.Machine
end

