-- ==== Sys2Proof/Machine/Logical.lean ====
section
/-! DEFINITION. AND, IOR and XOR (`spec/41_logical.md`). -/

namespace Sys2Proof.Machine

/-- AND(i, a, d) of R100. -/
def andAt (ind : Bool) (a : Addr) (d : Nat) (s : State) : State :=
  let (c, t) := operand ind a s
  (t.setAc (t.ac &&& c)).advance d

/-- IOR(i, a, d) of R101. -/
def iorAt (ind : Bool) (a : Addr) (d : Nat) (s : State) : State :=
  let (c, t) := operand ind a s
  (t.setAc (t.ac ||| c)).advance d

/-- XOR(i, a, d) of R102. -/
def xorAt (ind : Bool) (a : Addr) (d : Nat) (s : State) : State :=
  let (c, t) := operand ind a s
  (t.setAc (t.ac ^^^ c)).advance d

/-- AND as the outer instruction. -/
def execAnd (ind : Bool) (a : Addr) (s : State) : Host.Outcome State Fault Refusal :=
  runOuter (Instr.and ind a).opcode (fun t => some (andAt ind a 0 t)) s

/-- IOR as the outer instruction. -/
def execIor (ind : Bool) (a : Addr) (s : State) : Host.Outcome State Fault Refusal :=
  runOuter (Instr.ior ind a).opcode (fun t => some (iorAt ind a 0 t)) s

/-- XOR as the outer instruction. -/
def execXor (ind : Bool) (a : Addr) (s : State) : Host.Outcome State Fault Refusal :=
  runOuter (Instr.xor ind a).opcode (fun t => some (xorAt ind a 0 t)) s

end Sys2Proof.Machine
end

