-- ==== Sys2Proof/Machine/Undefined.lean ====
section
/-! DEFINITION. The 24 undefined opcodes (`spec/46_undefined.md` R160): each halts, and does nothing
else of its own.  The writes of MA and IR before it are the fetch's and the decode's (R161). -/

namespace Sys2Proof.Machine

/-- UNDEFINED(op) of R160: HLT <- true; no access, no register write, no Advance. -/
def haltUndefined (s : State) : State := s.stop .undefinedOpcode

/-- An undefined word as the outer instruction. -/
def execHalting (i : Instr) (s : State) : Host.Outcome State Fault Refusal :=
  runOuter i.opcode (fun t => some (haltUndefined t)) s

/-- Opcode 0o00 (R160). -/
def execUndefined00 (ind : Bool) (a : Addr) (s : State) : Host.Outcome State Fault Refusal :=
  execHalting (.undefined00 ind a) s

/-- Opcode 0o05 (R160). -/
def execUndefined05 (ind : Bool) (a : Addr) (s : State) : Host.Outcome State Fault Refusal :=
  execHalting (.undefined05 ind a) s

/-- Opcode 0o06 (R160). -/
def execUndefined06 (ind : Bool) (a : Addr) (s : State) : Host.Outcome State Fault Refusal :=
  execHalting (.undefined06 ind a) s

/-- Opcode 0o07 (R160). -/
def execUndefined07 (ind : Bool) (a : Addr) (s : State) : Host.Outcome State Fault Refusal :=
  execHalting (.undefined07 ind a) s

/-- Opcode 0o11 (R160). -/
def execUndefined11 (ind : Bool) (a : Addr) (s : State) : Host.Outcome State Fault Refusal :=
  execHalting (.undefined11 ind a) s

/-- Opcode 0o13 (R160). -/
def execUndefined13 (ind : Bool) (a : Addr) (s : State) : Host.Outcome State Fault Refusal :=
  execHalting (.undefined13 ind a) s

/-- Opcode 0o14 (R160). -/
def execUndefined14 (ind : Bool) (a : Addr) (s : State) : Host.Outcome State Fault Refusal :=
  execHalting (.undefined14 ind a) s

/-- Opcode 0o15 (R160). -/
def execUndefined15 (ind : Bool) (a : Addr) (s : State) : Host.Outcome State Fault Refusal :=
  execHalting (.undefined15 ind a) s

/-- Opcode 0o16 (R160). -/
def execUndefined16 (ind : Bool) (a : Addr) (s : State) : Host.Outcome State Fault Refusal :=
  execHalting (.undefined16 ind a) s

/-- Opcode 0o17 (R160). -/
def execUndefined17 (ind : Bool) (a : Addr) (s : State) : Host.Outcome State Fault Refusal :=
  execHalting (.undefined17 ind a) s

/-- Opcode 0o20 (R160). -/
def execUndefined20 (ind : Bool) (a : Addr) (s : State) : Host.Outcome State Fault Refusal :=
  execHalting (.undefined20 ind a) s

/-- Opcode 0o22 (R160). -/
def execUndefined22 (ind : Bool) (a : Addr) (s : State) : Host.Outcome State Fault Refusal :=
  execHalting (.undefined22 ind a) s

/-- Opcode 0o23 (R160). -/
def execUndefined23 (ind : Bool) (a : Addr) (s : State) : Host.Outcome State Fault Refusal :=
  execHalting (.undefined23 ind a) s

/-- Opcode 0o24 (R160). -/
def execUndefined24 (ind : Bool) (a : Addr) (s : State) : Host.Outcome State Fault Refusal :=
  execHalting (.undefined24 ind a) s

/-- Opcode 0o25 (R160). -/
def execUndefined25 (ind : Bool) (a : Addr) (s : State) : Host.Outcome State Fault Refusal :=
  execHalting (.undefined25 ind a) s

/-- Opcode 0o26 (R160). -/
def execUndefined26 (ind : Bool) (a : Addr) (s : State) : Host.Outcome State Fault Refusal :=
  execHalting (.undefined26 ind a) s

/-- Opcode 0o27 (R160). -/
def execUndefined27 (ind : Bool) (a : Addr) (s : State) : Host.Outcome State Fault Refusal :=
  execHalting (.undefined27 ind a) s

/-- Opcode 0o30 (R160). -/
def execUndefined30 (ind : Bool) (a : Addr) (s : State) : Host.Outcome State Fault Refusal :=
  execHalting (.undefined30 ind a) s

/-- Opcode 0o31 (R160). -/
def execUndefined31 (ind : Bool) (a : Addr) (s : State) : Host.Outcome State Fault Refusal :=
  execHalting (.undefined31 ind a) s

/-- Opcode 0o32 (R160). -/
def execUndefined32 (ind : Bool) (a : Addr) (s : State) : Host.Outcome State Fault Refusal :=
  execHalting (.undefined32 ind a) s

/-- Opcode 0o33 (R160). -/
def execUndefined33 (ind : Bool) (a : Addr) (s : State) : Host.Outcome State Fault Refusal :=
  execHalting (.undefined33 ind a) s

/-- Opcode 0o34 (R160). -/
def execUndefined34 (ind : Bool) (a : Addr) (s : State) : Host.Outcome State Fault Refusal :=
  execHalting (.undefined34 ind a) s

/-- Opcode 0o36 (R160). -/
def execUndefined36 (ind : Bool) (a : Addr) (s : State) : Host.Outcome State Fault Refusal :=
  execHalting (.undefined36 ind a) s

/-- Opcode 0o37 (R160). -/
def execUndefined37 (ind : Bool) (a : Addr) (s : State) : Host.Outcome State Fault Refusal :=
  execHalting (.undefined37 ind a) s

end Sys2Proof.Machine
end

