-- ==== Sys2Proof/Machine/Execute.lean ====
section
/-! DEFINITION. XCT and the nested execution it starts (`spec/42_execute.md`; `spec/40_cycle.md`
R82). -/

namespace Sys2Proof.Machine

/-- The dispatch of Exec(w, d) on a decoded word (R82).  What an XCT does at this depth is the
argument `onXct`; `none` is a raised XctCycle. -/
def dispatchAt (p : Params) (onXct : Bool → Addr → State → Option State) (i : Instr) (d : Nat)
    (s : State) : Option State :=
  match i with
  | .xct ind a => onXct ind a s
  | .undefined00 _ _ => some (haltUndefined s)
  | .and ind a => some (andAt ind a d s)
  | .ior ind a => some (iorAt ind a d s)
  | .xor ind a => some (xorAt ind a d s)
  | .undefined05 _ _ => some (haltUndefined s)
  | .undefined06 _ _ => some (haltUndefined s)
  | .undefined07 _ _ => some (haltUndefined s)
  | .lac ind a => some (lacAt ind a d s)
  | .undefined11 _ _ => some (haltUndefined s)
  | .dac ind a => some (dacAt ind a d s)
  | .undefined13 _ _ => some (haltUndefined s)
  | .undefined14 _ _ => some (haltUndefined s)
  | .undefined15 _ _ => some (haltUndefined s)
  | .undefined16 _ _ => some (haltUndefined s)
  | .undefined17 _ _ => some (haltUndefined s)
  | .undefined20 _ _ => some (haltUndefined s)
  | .sub ind a => some (subAt ind a d s)
  | .undefined22 _ _ => some (haltUndefined s)
  | .undefined23 _ _ => some (haltUndefined s)
  | .undefined24 _ _ => some (haltUndefined s)
  | .undefined25 _ _ => some (haltUndefined s)
  | .undefined26 _ _ => some (haltUndefined s)
  | .undefined27 _ _ => some (haltUndefined s)
  | .undefined30 _ _ => some (haltUndefined s)
  | .undefined31 _ _ => some (haltUndefined s)
  | .undefined32 _ _ => some (haltUndefined s)
  | .undefined33 _ _ => some (haltUndefined s)
  | .undefined34 _ _ => some (haltUndefined s)
  | .iot ind a => some (iotAt p ind a d s)
  | .undefined36 _ _ => some (haltUndefined s)
  | .undefined37 _ _ => some (haltUndefined s)

/-- XCT(i, a, d) of R110, with `left` = XCT_DEPTH_LIMIT - d: how many further levels may start.  EA,
the target read (MA <- Y), the guard of R113, then Exec(w', d + 1) (IR <- its opcode, dispatch),
then the XCT's own Advance(d). -/
def xctAt (p : Params) : (left : Nat) → Bool → Addr → Nat → State → Option State
  | 0, _, _, _, _ => none
  | left + 1, ind, a, d, s =>
    let (w, t) := operand ind a s
    (dispatchAt p (fun ind' a' => xctAt p left ind' a' (d + 1)) (decode w) (d + 1)
      (t.setIr (opcodeField w))).map (State.advance d)

/-- XCT as the outer instruction, for any parameters. -/
def execXctWith (p : Params) (ind : Bool) (a : Addr) (s : State) :
    Host.Outcome State Fault Refusal :=
  runOuter (Instr.xct ind a).opcode (xctAt p p.xctDepthLimit ind a 0) s

/-- XCT as the outer instruction, with the default limit and hook of R9 (assumption log 3, 4). -/
def execXct (ind : Bool) (a : Addr) (s : State) : Host.Outcome State Fault Refusal :=
  execXctWith Config.params ind a s

/-- An instruction fetched at PC, for any parameters (R88, R94): `exec` with the parameters left as
arguments, as R9 asks. -/
def execWith (p : Params) (i : Instr) (s : State) : Host.Outcome State Fault Refusal :=
  runOuter i.opcode (dispatchAt p (fun ind a => xctAt p p.xctDepthLimit ind a 0) i 0) s

end Sys2Proof.Machine
end

