-- ==== Sys2Proof/Machine/Dispatch.lean ====
section
/-! DEFINITION. The one dispatch of the outer instruction. -/

namespace Sys2Proof.Machine

def exec (i : Instr) (s : State) : Host.Outcome State Fault Refusal :=
  match i with
  | .undefined00 ind a => Sys2Proof.Machine.execUndefined00 ind a s
  | .and ind a => Sys2Proof.Machine.execAnd ind a s
  | .ior ind a => Sys2Proof.Machine.execIor ind a s
  | .xor ind a => Sys2Proof.Machine.execXor ind a s
  | .xct ind a => Sys2Proof.Machine.execXct ind a s
  | .undefined05 ind a => Sys2Proof.Machine.execUndefined05 ind a s
  | .undefined06 ind a => Sys2Proof.Machine.execUndefined06 ind a s
  | .undefined07 ind a => Sys2Proof.Machine.execUndefined07 ind a s
  | .lac ind a => Sys2Proof.Machine.execLac ind a s
  | .undefined11 ind a => Sys2Proof.Machine.execUndefined11 ind a s
  | .dac ind a => Sys2Proof.Machine.execDac ind a s
  | .undefined13 ind a => Sys2Proof.Machine.execUndefined13 ind a s
  | .undefined14 ind a => Sys2Proof.Machine.execUndefined14 ind a s
  | .undefined15 ind a => Sys2Proof.Machine.execUndefined15 ind a s
  | .undefined16 ind a => Sys2Proof.Machine.execUndefined16 ind a s
  | .undefined17 ind a => Sys2Proof.Machine.execUndefined17 ind a s
  | .undefined20 ind a => Sys2Proof.Machine.execUndefined20 ind a s
  | .sub ind a => Sys2Proof.Machine.execSub ind a s
  | .undefined22 ind a => Sys2Proof.Machine.execUndefined22 ind a s
  | .undefined23 ind a => Sys2Proof.Machine.execUndefined23 ind a s
  | .undefined24 ind a => Sys2Proof.Machine.execUndefined24 ind a s
  | .undefined25 ind a => Sys2Proof.Machine.execUndefined25 ind a s
  | .undefined26 ind a => Sys2Proof.Machine.execUndefined26 ind a s
  | .undefined27 ind a => Sys2Proof.Machine.execUndefined27 ind a s
  | .undefined30 ind a => Sys2Proof.Machine.execUndefined30 ind a s
  | .undefined31 ind a => Sys2Proof.Machine.execUndefined31 ind a s
  | .undefined32 ind a => Sys2Proof.Machine.execUndefined32 ind a s
  | .undefined33 ind a => Sys2Proof.Machine.execUndefined33 ind a s
  | .undefined34 ind a => Sys2Proof.Machine.execUndefined34 ind a s
  | .iot ind a => Sys2Proof.Machine.execIot ind a s
  | .undefined36 ind a => Sys2Proof.Machine.execUndefined36 ind a s
  | .undefined37 ind a => Sys2Proof.Machine.execUndefined37 ind a s

end Sys2Proof.Machine
end

