-- ==== Sys2Proof/Machine/Step.lean ====
section
/-! DEFINITION. The step (`spec/40_cycle.md` R80 to R88): one outer instruction with all its nested
executions (`spec/00_scope.md` R6). -/

namespace Sys2Proof.Machine

/-- Why a state with HLT set has no step (R80, R92). -/
def State.finalFault (s : State) : Fault := if s.xf then .faulted else .halted

/-- Step() of R88 with the default parameters of R9: enabled exactly when HLT is false (R80); it
decodes the word at PC and executes it. -/
def step (s : State) : Host.Outcome State Fault Refusal :=
  if s.hlt then .fault s.finalFault else exec (decode s.fetchWord) s

/-- Step() of R88 for any parameters (R9, R94). -/
def stepWith (p : Params) (s : State) : Host.Outcome State Fault Refusal :=
  if s.hlt then .fault s.finalFault else execWith p (decode s.fetchWord) s

/-- The step as a relation over the hook's answer, for a device of which nothing is known: each IOT
may be answered with any AC' and IO' (R94, R151).  A step calls the hook at most once, so drawing
the hook anew at each step draws each answer. -/
def StepDraw (limit : Nat) (one_le : 1 ≤ limit) (s t : State) : Prop :=
  ∃ hook : IotHook, stepWith ⟨hook, limit, one_le⟩ s = .next t

/-- `s` with the word `w` in memory where the next step fetches: at PC (R81).  It is what the
external loader or the host's memory write does (R54, R90); HLT is left as it is.  A number of 2^18 or
more is no word, and placing it no legal move (R29, U7 of `spec/93_implementation_defined.md`); that
its low 18 bits are placed is the model's choice (DESIGN CHOICE, assumption log 17). -/
def State.withFetchWord (s : State) (_nbits w : Nat) : State :=
  s.setMem (s.mem.write s.pc (BitVec.ofNat 18 w))

end Sys2Proof.Machine
end

