-- ==== Sys2Proof/Machine/HostPort.lean ====
section
/-! DEFINITION. The host access port (`spec/40_cycle.md` R90, `spec/00_scope.md` R7): what the
outside may write between steps.  Reading needs no definition: every field of `State` is readable.
A host write is no step; `step` never performs one (R90, log 7). -/

namespace Sys2Proof.Machine

/-- One host write.  The types keep every written value in width (R29, R90). -/
inductive HostWrite where
  | mem (a : Addr) (v : Word)
  | ac (v : Word)
  | io (v : Word)
  | pc (a : Addr)
  | ma (a : Addr)
  | ir (op : Opcode)
  | ov (b : Bool)
  | hlt (b : Bool)
  | xf (b : Bool)
  /-- A reset, with the image the loader gives (R174, R190). -/
  | reset (mem0 : Memory)
  deriving DecidableEq, Repr

/-- The state after a host write between two steps (R90). -/
def State.hostWrite (s : State) : HostWrite → State
  | .mem a v => s.setMem (s.mem.write a v)
  | .ac v => s.setAc v
  | .io v => s.setIo v
  | .pc a => s.setPc a
  | .ma a => s.setMa a
  | .ir op => s.setIr op
  | .ov b => s.setOv b
  | .hlt b => s.setHlt b
  | .xf b => s.setXf b
  | .reset mem0 => State.launch mem0

end Sys2Proof.Machine
end

