-- ==== Sys2Proof/Machine/Trace.lean ====
section
/-! DEFINITION. The trace port (`spec/40_cycle.md` R91): output only; no definition of the machine
reads it. -/

namespace Sys2Proof.Machine

/-- One decode event (d, w, op, i, a) (R91). -/
structure DecodeEvent where
  depth : Nat
  word : Word
  opcode : Opcode
  indirect : Bool
  address : Addr
  deriving DecidableEq, Repr

/-- The event of decoding `w` at depth `d`. -/
def decodeEvent (d : Nat) (w : Word) : DecodeEvent :=
  ⟨d, w, opcodeField w, indirectField w, addressField w⟩

/-- The decodes of Exec(w, d) when `left` further levels may start: the word's own, then, for an
XCT within the limit, its target's (R82, R110).  Memory does not change before the last one. -/
def decodeEvents (m : Memory) : (left : Nat) → Word → Nat → List DecodeEvent
  | 0, w, d => [decodeEvent d w]
  | left + 1, w, d =>
    decodeEvent d w ::
      match decode w with
      | .xct ind a => decodeEvents m left (m.read (effAddr ind a m)) (d + 1)
      | _ => []

/-- The snapshot (AC, IO, PC, MA, IR, OV, HLT, XF) (R91). -/
structure Snapshot where
  ac : Word
  io : Word
  pc : Addr
  ma : Addr
  ir : Opcode
  ov : Bool
  hlt : Bool
  xf : Bool
  deriving DecidableEq, Repr

/-- The registers and flags of a state, as the trace port shows them. -/
def State.snapshot (s : State) : Snapshot :=
  ⟨s.ac, s.io, s.pc, s.ma, s.ir, s.ov, s.hlt, s.xf⟩

/-- What the port emits for one step: the decode events in order, then the snapshot of the state
after it; nothing for a step that is not enabled (R80, R91). -/
def stepTrace (p : Params) (s : State) : Option (List DecodeEvent × Snapshot) :=
  match stepWith p s with
  | .next t => some (decodeEvents s.mem p.xctDepthLimit s.fetchWord 0, t.snapshot)
  | _ => none

end Sys2Proof.Machine
end

