-- ==== Sys2Proof/Safety.lean ====
section
/-! DEFINITION. What claims are said in: how a run ends (`spec/40_cycle.md` R92), runs, the chain of
addresses an XCT follows (`spec/42_execute.md` R114), and the invariant of the machine. -/

namespace Sys2Proof.Machine

/-- A final state of a normal end: HLT set, XF clear (R15, R92). -/
def State.Halted (s : State) : Prop := s.hlt = true ∧ s.xf = false

/-- A final state of a faulted run, never a successful end (R15, R92). -/
def State.Faulted (s : State) : Prop := s.hlt = true ∧ s.xf = true

/-- What every state of a run satisfies: memory is in canonical form, and XF comes with HLT (R28).
-/
structure State.Inv (s : State) : Prop where
  memory : s.mem.wf = true
  xf_hlt : s.xf = true → s.hlt = true

/-- `t` is reached from `s` by steps alone: no host write during a run (R90). -/
inductive Reaches (p : Params) (s : State) : State → Prop where
  | refl : Reaches p s s
  | step {t u : State} : Reaches p s t → stepWith p t = .next u → Reaches p s u

/-- The run from `s` ends at `t`, normally (R92). -/
def EndsNormally (p : Params) (s t : State) : Prop := Reaches p s t ∧ t.Halted

/-- The address of the word that the word at `x` has executed, where that word is an XCT. -/
def chainNext (m : Memory) (x : Addr) : Option Addr :=
  match decode (m.read x) with
  | .xct ind a => some (effAddr ind a m)
  | _ => none

/-- x0, x1, … of R114, starting at `x`: `none` once a word that is no XCT was reached. -/
def chainAt (m : Memory) (x : Addr) : Nat → Option Addr
  | 0 => some x
  | n + 1 => (chainAt m x n).bind (chainNext m)

/-- Every word of the chain is an XCT: the reference would recurse without end (R114). -/
def InfiniteChain (m : Memory) (x : Addr) : Prop := ∀ n, (chainAt m x n).isSome = true

/-- The chain from `x` ends, after `n` XCT words, at the word at `y`, which is no XCT. -/
def ChainEnds (m : Memory) (x : Addr) (n : Nat) (y : Addr) : Prop :=
  chainAt m x n = some y ∧ chainNext m y = none

end Sys2Proof.Machine
end

