-- ==== Sys2Proof/Certificates/Slice0/Obligations.lean ====
section
/-! DEFINITION. The statements about this machine, from the numbered rules of `spec/`.  A statement
over `Params` holds for every device and every depth limit; `exec` and `step` are the machine with
the defaults of R9 (no device attached, limit 4095).  Where a rule carries a decision or a derivation
the spec marks as its own, the docstring names it and the statement's basis is 'derived'. -/

open Sys2Proof Sys2Proof.Machine

/-! ## Decoding -/

/-- R62: the three fields of a word, by the shift formulas, for every 18-bit word. -/
def Obligations.DecoderFollowsShiftFormulas : Prop :=
  ∀ w : Word,
    (decode w).opcode.toNat = w.toNat >>> 13 ∧
    (decode w).indirect.toNat = (w.toNat >>> 12) &&& 1 ∧
    (decode w).address.toNat = w.toNat &&& 0xFFF ∧
    decodeRaw w = ⟨(decode w).opcode.toNat, (decode w).indirect.toNat, (decode w).address.toNat⟩

/-- R63, on instructions: encode is the formula, and encode and decode undo each other, every
operand at every value. -/
def Obligations.DecodeEncodeRoundTrip : Prop :=
  (∀ i : Instr, decode (encode i) = i ∧
    (encode i).toNat =
      (i.opcode.toNat <<< 13) ||| (i.indirect.toNat <<< 12) ||| i.address.toNat) ∧
  (∀ w : Word, encode (decode w) = w)

/-- R63, on the triples of numbers: for op in 0..31, i in 0..1 and a in 0..4095. -/
def Obligations.FieldTripleRoundTrip : Prop :=
  (∀ r : RawInstr, r.wf = true →
    decodeRaw (encodeRaw r) = r ∧
    (encodeRaw r).toNat = (r.opcode <<< 13) ||| (r.indirect <<< 12) ||| r.address) ∧
  (∀ w : Word, (decodeRaw w).wf = true ∧ encodeRaw (decodeRaw w) = w)

/-- R66 and R160: the 24 undefined opcode values, whatever i and a, and that every such word halts
when it is fetched.  Which values are defined is the spec's own decision D2 (octal; log 6).  That the
halting step writes MA (PC) and IR (the opcode) is no word of R66: it is D11 with D9 and D10 (R161;
log 9, 14). -/
def Obligations.UndefinedOpcodesAreTheTwentyFour : Prop :=
  ∀ w : Word, ((decode w).isUndefined = true ↔
    w.toNat >>> 13 ∈ [0o00, 0o05, 0o06, 0o07, 0o11, 0o13, 0o14, 0o15, 0o16, 0o17, 0o20, 0o22, 0o23,
      0o24, 0o25, 0o26, 0o27, 0o30, 0o31, 0o32, 0o33, 0o34, 0o36, 0o37]) ∧
    ((decode w).isUndefined = true → ∀ s : State, s.hlt = false → s.mem.read s.pc = w →
      step s = .next { s with ma := s.pc, ir := opcodeField w, hlt := true })

/-- Words written out from the table of R65 decode to the instructions they stand for; a sanity
statement over a few words of every family.  The table is the spec's own decision D2 (octal, log 6,
DEDUCED): the words of LAC, DAC, SUB and IOT, and that the last two are undefined, rest on it. -/
def Obligations.WrittenOutWordsDecode : Prop :=
  decode 0b000010000001010011#18 = .and false 0o123#12 ∧
  decode 0b000101000000001000#18 = .ior true 0o10#12 ∧
  decode 0b000110111111111111#18 = .xor false 0o7777#12 ∧
  decode 0b001001000000000101#18 = .xct true 0o5#12 ∧
  decode 0b010000000001000000#18 = .lac false 0o100#12 ∧
  decode 0b010101000000001001#18 = .dac true 0o11#12 ∧
  decode 0b100010000001000001#18 = .sub false 0o101#12 ∧
  decode 0b111011000000111111#18 = .iot true 0o77#12 ∧
  decode 0b000000000000000000#18 = .undefined00 false 0#12 ∧
  decode 0b111110000100000000#18 = .undefined37 false 0o400#12

/-! ## The step -/

/-- A step runs the decoded instruction: `exec` is what a step does after the fetch and the decode,
for the fixed machine and for any parameters (R81, R82, R88).  `exec` itself holds the writes of MA
and IR before the dispatch (D9, D10; log 9), so nothing stands around it; `Config.params` are the
defaults of R9 (D8, D5; log 3, 4). -/
def Obligations.StepRunsFetchedInstruction : Prop :=
  ∀ s : State, s.hlt = false →
    (∀ i : Instr, s.mem.read s.pc = encode i → step s = exec i s) ∧
    step s = exec (decode (s.mem.read s.pc)) s ∧
    (∀ p, stepWith p s = execWith p (decode (s.mem.read s.pc)) s) ∧
    (∀ i, exec i s = execWith Config.params i s)

/-- R80: a step is enabled exactly when HLT is false; otherwise the state is final, halted or
faulted by XF; and XF comes with HLT.  That a final state's step answers one of two named stops is
the model's choice, after the spec's own decision D13 (log 8); XF itself is D5 (log 10). -/
def Obligations.StepEnabledExactlyWhenNotHalted : Prop :=
  ∀ (p : Params) (s : State),
    ((∃ t, stepWith p s = .next t) ↔ s.hlt = false) ∧
    (s.hlt = true → s.xf = false → stepWith p s = .fault .halted) ∧
    (s.hlt = true → s.xf = true → stepWith p s = .fault .faulted) ∧
    (∀ t, s.Inv → stepWith p s = .next t → t.xf = true → t.hlt = true) ∧
    step s = stepWith Config.params s

/-- No instruction faults or is refused, in any state and with any parameters: memory, arithmetic
and decoding raise nothing (R175, R176), and the two stop events of R170 answer next states.  For
XctCycle, which R15 lists as an outcome of its own, that is the model's reading of the spec's own
decision D5 (log 10, DEDUCED). -/
def Obligations.EveryInstructionAnswersNextState : Prop :=
  ∀ (p : Params) (i : Instr) (s : State),
    (∃ t, execWith p i s = .next t) ∧ (∃ t, exec i s = .next t)

/-- R83: the two operand forms.  Direct: Y = a and nothing is read.  Indirect: Y is the low 12 bits
of the word at a, the bits above them are ignored, and MA <- a (the write of MA is the spec's own
decision D9; log 9). -/
def Obligations.EffectiveAddressIsOneLevel : Prop :=
  ∀ (a : Addr) (s : State),
    resolve false a s = (a, s) ∧
    (resolve true a s).1.toNat = (s.mem.read a).toNat &&& 0xFFF ∧
    (resolve true a s).2 = { s with ma := a } ∧
    (∀ ind, effAddr ind a s.mem = (resolve ind a s).1) ∧
    (∀ (m m' : Memory), (m.read a).toNat % 4096 = (m'.read a).toNat % 4096 →
      effAddr true a m = effAddr true a m')

/-- R86:  Advance(d) moves PC by one modulo 4096 at depth 0 alone; over a whole step PC moves by one
unless the outer word is undefined or the step ends in XctCycle.  The last exception and the move
past a nested undefined word are the spec's own decisions D5 and D6 (log 10, 12). -/
def Obligations.PcAdvancesOncePerStep : Prop :=
  (∀ (d : Nat) (s : State), s.advance d = { s with pc := if d = 0 then s.pc + 1 else s.pc }) ∧
  (∀ (p : Params) (s t : State), s.Inv → stepWith p s = .next t →
    t.pc.toNat = if t.xf = true ∨ (decode (s.mem.read s.pc)).isUndefined = true then s.pc.toNat
      else (s.pc.toNat + 1) % 4096)

/-! ## The instructions.  Each says its encoding under the table's mask, its effect at every depth,
and the whole next state when it is fetched at PC, so everything not named is unchanged.  In each, MA
and IR are written by the spec's own decisions D9 and D10 (log 9), not by the instruction's rule. -/

/-- R100, with the encoding of R65 (D2; log 6); MA := Y is D9, and IR, which R100 does not name, is
R25 and R82 by D10 (log 9). -/
def Obligations.AndResult : Prop :=
  ∀ (ind : Bool) (a : Addr) (s : State),
    let y := effAddr ind a s.mem
    let r := s.ac &&& s.mem.read y
    encode (.and ind a) &&& 0o760000#18 = 0o020000#18 ∧
    (∀ d, andAt ind a d s =
      { s with ac := r, ma := y, pc := if d = 0 then s.pc + 1 else s.pc }) ∧
    exec (.and ind a) s = .next { s with ac := r, ma := y, ir := 0o01#5, pc := s.pc + 1 }

/-- R101, with the encoding of R65 (D2; log 6); MA := Y is D9, and IR, which R101 does not name, is
R25 and R82 by D10 (log 9). -/
def Obligations.IorResult : Prop :=
  ∀ (ind : Bool) (a : Addr) (s : State),
    let y := effAddr ind a s.mem
    let r := s.ac ||| s.mem.read y
    encode (.ior ind a) &&& 0o760000#18 = 0o040000#18 ∧
    (∀ d, iorAt ind a d s =
      { s with ac := r, ma := y, pc := if d = 0 then s.pc + 1 else s.pc }) ∧
    exec (.ior ind a) s = .next { s with ac := r, ma := y, ir := 0o02#5, pc := s.pc + 1 }

/-- R102, with the encoding of R65 (D2; log 6); XOR with 0o777777 negates.  MA := Y is D9, and IR,
which R102 does not name, is R25 and R82 by D10 (log 9). -/
def Obligations.XorResult : Prop :=
  ∀ (ind : Bool) (a : Addr) (s : State),
    let y := effAddr ind a s.mem
    let r := s.ac ^^^ s.mem.read y
    encode (.xor ind a) &&& 0o760000#18 = 0o060000#18 ∧
    (∀ d, xorAt ind a d s =
      { s with ac := r, ma := y, pc := if d = 0 then s.pc + 1 else s.pc }) ∧
    exec (.xor ind a) s = .next { s with ac := r, ma := y, ir := 0o03#5, pc := s.pc + 1 } ∧
    (s.mem.read y = dataMask → r = negate s.ac)

/-- R120; its opcode value rests on D2 (log 6), MA on D9, and IR, which R120 does not name, on D10
(log 9). -/
def Obligations.LacResult : Prop :=
  ∀ (ind : Bool) (a : Addr) (s : State),
    let y := effAddr ind a s.mem
    encode (.lac ind a) &&& 0o760000#18 = 0o200000#18 ∧
    (∀ d, lacAt ind a d s =
      { s with ac := s.mem.read y, ma := y, pc := if d = 0 then s.pc + 1 else s.pc }) ∧
    exec (.lac ind a) s =
      .next { s with ac := s.mem.read y, ma := y, ir := 0o10#5, pc := s.pc + 1 }

/-- R121; its opcode value rests on D2, MA on D9 and IR on D10 (log 6, 9).  Memory is given word by
word:  Y holds AC, every other address reads as before; no register but MA, IR and PC changes, and
memory stays in canonical form, the model's own (log 1). -/
def Obligations.DacResult : Prop :=
  ∀ (ind : Bool) (a : Addr) (s : State),
    let y := effAddr ind a s.mem
    encode (.dac ind a) &&& 0o760000#18 = 0o240000#18 ∧
    (∀ d, dacAt ind a d s = { s with
      mem := s.mem.write y s.ac, ma := y, pc := if d = 0 then s.pc + 1 else s.pc }) ∧
    ∃ t, exec (.dac ind a) s = .next t ∧
      t = { s with mem := t.mem, ma := y, ir := 0o12#5, pc := s.pc + 1 } ∧
      (∀ x, x ≠ y → t.mem.read x = s.mem.read x) ∧
      (s.mem.wf = true → t.mem.read y = s.ac ∧ t.mem.wf = true)

/-- R122, which the spec derives from R120 and R121: LAC then DAC at one address, in either mode,
leaves memory as it was, as data in the model's own canonical form (log 1), and AC equal to it. -/
def Obligations.LoadThenDepositLeavesMemory : Prop :=
  ∀ (ind ind' : Bool) (a a' : Addr) (s : State), s.mem.wf = true →
    effAddr ind a s.mem = effAddr ind' a' s.mem →
    ∃ t u, exec (.lac ind a) s = .next t ∧ exec (.dac ind' a') t = .next u ∧
      u.mem = s.mem ∧ u.ac = s.mem.read (effAddr ind a s.mem)

/-- R132: the four steps of the source's algorithm on natural numbers, the sticky OV, the whole next
state; then the corner cases about zero.  The opcode value rests on D2 (log 6), OV on D4 with bit 17
PRESUMED to be the sign (log 5, 11), MA and IR on D9 and D10 (log 9). -/
def Obligations.SubResult : Prop :=
  (∀ (ind : Bool) (a : Addr) (s : State),
    let y := effAddr ind a s.mem
    let c := s.mem.read y
    let sum := (s.ac ^^^ 0o777777#18).toNat + c.toNat
    let sum' := if sum > 0o777777 then (sum + 1) &&& 0o777777 else sum
    let r : Word := BitVec.ofNat 18 sum' ^^^ 0o777777#18
    let ov := s.ov || ovCond s.ac c r
    encode (.sub ind a) &&& 0o760000#18 = 0o420000#18 ∧
    (∀ d, subAt ind a d s =
      { s with ac := r, ov := ov, ma := y, pc := if d = 0 then s.pc + 1 else s.pc }) ∧
    exec (.sub ind a) s =
      .next { s with ac := r, ov := ov, ma := y, ir := 0o21#5, pc := s.pc + 1 }) ∧
  (∀ x : Word, subtract x x = 0) ∧
  (∀ x c : Word, subtract x c = 0o777777#18 ↔ x = 0o777777#18 ∧ c = 0) ∧
  subtract 0 0o777777#18 = 0

/-- R150: IOT with any hook, at every depth and fetched at PC; with no device attached it changes
only MA (the fetch address), IR and PC.  That no pointer is read, and that the hook is a parameter,
are the spec's own decisions D7 and D8 (log 3, 13); the opcode value, and so the word 720000, is D2
(log 6); MA and IR are D9 and D10 (log 9). -/
def Obligations.IotResult : Prop :=
  ∀ (p : Params) (ind : Bool) (a : Addr) (s : State),
    let r := p.iotHook a ind s.ac s.io
    encode (.iot ind a) &&& 0o760000#18 = 0o720000#18 ∧
    (∀ d, iotAt p ind a d s =
      { s with ac := r.1, io := r.2, pc := if d = 0 then s.pc + 1 else s.pc }) ∧
    execWith p (.iot ind a) s = .next
      { s with ac := r.1, io := r.2, ma := s.pc, ir := 0o35#5, pc := s.pc + 1 } ∧
    exec (.iot ind a) s = .next { s with ma := s.pc, ir := 0o35#5, pc := s.pc + 1 }

/-- R160, all 24 of them:  HLT is all the instruction itself writes, at every depth; fetched at PC,
MA and IR hold what the fetch and the decode wrote and PC does not move; and the state is final.
Which opcodes they are is D2, that MA and IR change is D11 with D9 and D10 (log 6, 9, 14); that no
step follows is D13 (log 8). -/
def Obligations.UndefinedOpcodesHalt : Prop :=
  ∀ (ind : Bool) (a : Addr) (s : State),
    ∀ i ∈ [Instr.undefined00 ind a, .undefined05 ind a, .undefined06 ind a, .undefined07 ind a,
      .undefined11 ind a, .undefined13 ind a, .undefined14 ind a, .undefined15 ind a,
      .undefined16 ind a, .undefined17 ind a, .undefined20 ind a, .undefined22 ind a,
      .undefined23 ind a, .undefined24 ind a, .undefined25 ind a, .undefined26 ind a,
      .undefined27 ind a, .undefined30 ind a, .undefined31 ind a, .undefined32 ind a,
      .undefined33 ind a, .undefined34 ind a, .undefined36 ind a, .undefined37 ind a],
    i.isUndefined = true ∧
    (encode i).toNat &&& 0o760000 = i.opcode.toNat * 2 ^ 13 ∧
    (∀ p f d, dispatchAt p f i d s = some { s with hlt := true }) ∧
    exec i s = .next { s with ma := s.pc, ir := i.opcode, hlt := true } ∧
    (∀ t u, exec i s = .next t → step t ≠ .next u)

/-! ## Execute-at-address -/

/-- XCT completes on every word but an XCT: on a memory-reference word it gives exactly the state
that word gives when executed in line; on an IOT, with no device attached, MA the target; on an
undefined word the halt, with PC moved, the spec's own decision D6 (R110, R111, R112; log 12).  The
opcode values are D2 (log 6), MA and IR D9 and D10 (log 9), an IOT's MA also D7 (log 13).  That an
IOT leaves AC and IO is R150 with the default hook of R151, D8, which is the model's choice for `exec`
(log 3).  A target that is an XCT again is `XctChainRunsItsLastWord`, `NestedUndefinedHaltsPastXct` and
`XctCycleExactlyBeyondLimit`. -/
def Obligations.XctRunsTargetWord : Prop :=
  ∀ (ind : Bool) (a : Addr) (s : State),
    let y := effAddr ind a s.mem
    let i := decode (s.mem.read y)
    (i.opcode ∈ [0o01#5, 0o02#5, 0o03#5, 0o10#5, 0o12#5, 0o21#5] →
      ∃ t, exec (.xct ind a) s = .next t ∧ exec i s = .next t ∧ t.pc = s.pc + 1) ∧
    (i.opcode = 0o35#5 →
      exec (.xct ind a) s = .next { s with ma := y, ir := 0o35#5, pc := s.pc + 1 }) ∧
    (i.isUndefined = true → exec (.xct ind a) s = .next
      { s with ma := y, ir := i.opcode, hlt := true, pc := s.pc + 1 })

/-- R111, however deep the nesting: a step whose XCT chain ends, within the limit, at a defined word
does what that word does fetched at PC; an IOT at the end gets its hook call, with MA its address.
The limit is the spec's own decision D5 (log 10), the opcode values D2 (log 6), the IOT's IR and MA
D10 and D9 (log 9), its MA for either i also D7 (log 13), its hook D8 (log 3). -/
def Obligations.XctChainRunsItsLastWord : Prop :=
  ∀ (p : Params) (s : State) (n : Nat) (y : Addr), s.hlt = false →
    ChainEnds s.mem s.pc n y → n ≤ p.xctDepthLimit →
    let i := decode (s.mem.read y)
    (i.opcode ∈ [0o01#5, 0o02#5, 0o03#5, 0o10#5, 0o12#5, 0o21#5] →
      ∃ t, stepWith p s = .next t ∧ execWith p i s = .next t ∧ t.pc = s.pc + 1) ∧
    (i.opcode = 0o35#5 →
      stepWith p s = .next
        { s with
          ac := (p.iotHook i.address i.indirect s.ac s.io).1
          io := (p.iotHook i.address i.indirect s.ac s.io).2
          ma := y, ir := 0o35#5, pc := s.pc + 1 })

/-- R112, the spec's own decision D6 (log 12), at any depth of at least 1: HLT, IR and MA by the
undefined word (D9, D10, D11; log 9, 14), PC the XCT's own + 1. -/
def Obligations.NestedUndefinedHaltsPastXct : Prop :=
  ∀ (p : Params) (s : State) (n : Nat) (y : Addr), s.hlt = false →
    ChainEnds s.mem s.pc n y → 1 ≤ n → n ≤ p.xctDepthLimit →
    (decode (s.mem.read y)).isUndefined = true →
    ∃ t, stepWith p s = .next t ∧
      t = { s with hlt := true, ir := opcodeField (s.mem.read y), ma := y, pc := t.pc } ∧
      t.pc.toNat = (s.pc.toNat + 1) % 4096

/-- R113, the spec's own decision D5 (log 4, 10):  XctCycle is raised exactly when the words at
depths 0 to the limit are all XCTs; the step then leaves everything but HLT and XF as it was.  The
default limit is 4095. -/
def Obligations.XctCycleExactlyBeyondLimit : Prop :=
  (∀ (p : Params) (s : State), s.hlt = false →
    ((chainAt s.mem s.pc (p.xctDepthLimit + 1)).isSome = true →
      stepWith p s = .next { s with hlt := true, xf := true }) ∧
    (s.xf = false → stepWith p s = .next { s with hlt := true, xf := true } →
      (chainAt s.mem s.pc (p.xctDepthLimit + 1)).isSome = true)) ∧
  Config.params.xctDepthLimit = 4095

/-- R114, which the spec derives from R110 and R113: with a limit of 4095 or more, XctCycle is
raised exactly on an infinite chain, since a chain that ends does so within 4095 XCT words; with any
smaller limit it also is on some finite one.  The guard, and XctCycle as a next state, are the spec's
own decision D5 (log 4, 10). -/
def Obligations.XctCycleExactlyOnInfiniteChains : Prop :=
  (∀ (p : Params) (s : State), 4095 ≤ p.xctDepthLimit → s.hlt = false → s.xf = false →
    (stepWith p s = .next { s with hlt := true, xf := true } ↔ InfiniteChain s.mem s.pc)) ∧
  (∀ (m : Memory) (x : Addr) (n : Nat) (y : Addr), ChainEnds m x n y → n ≤ 4095) ∧
  (∀ p : Params, p.xctDepthLimit < 4095 → ∃ (s : State) (n : Nat) (y : Addr), s.Inv ∧
    s.hlt = false ∧ ChainEnds s.mem s.pc n y ∧
    stepWith p s = .next { s with hlt := true, xf := true })

/-- R9, the row of XCT_DEPTH_LIMIT, and R114: every limit of 4095 or more is one and the same
machine.  The guard is the spec's own decision D5 (log 4, 10). -/
def Obligations.LimitsFrom4095AreOneMachine : Prop :=
  ∀ (p q : Params) (s : State), p.iotHook = q.iotHook → 4095 ≤ p.xctDepthLimit →
    4095 ≤ q.xctDepthLimit → stepWith p s = stepWith q s

/-! ## The flags, the special registers and the stop events -/

/-- R92, the spec's own decision D13, with D5 and D6 (log 8, 10, 12): what a final state records.
Halted: the undefined word the step reached, in MA and IR (D9, D10, D11; log 9, 14), PC by whether it
was fetched or nested.  Faulted: everything from before the step. -/
def Obligations.FinalStateRecordsItsCause : Prop :=
  ∀ (p : Params) (s t : State), s.Inv → stepWith p s = .next t → t.hlt = true →
    (t.xf = false → ∃ n y, ChainEnds s.mem s.pc n y ∧
      (decode (s.mem.read y)).isUndefined = true ∧
      t = { s with hlt := true, ma := y, ir := opcodeField (s.mem.read y),
                   pc := if n = 0 then y else s.pc + 1 }) ∧
    (t.xf = true → t = { s with hlt := true, xf := true })

/-- R27: HLT is clear after reset; a step sets it exactly by one of the two stop events; no
instruction clears it.  Which chains raise XctCycle is R113, the spec's own decision D5 (log 10). -/
def Obligations.HaltFlagSetOnlyByStopEvents : Prop :=
  (∀ mem0, (State.launch mem0).hlt = false) ∧
  (∀ (p : Params) (s t : State), s.Inv → stepWith p s = .next t →
    (t.hlt = true ↔
      (∃ n y, n ≤ p.xctDepthLimit ∧ ChainEnds s.mem s.pc n y ∧
        (decode (s.mem.read y)).isUndefined = true) ∨
      (chainAt s.mem s.pc (p.xctDepthLimit + 1)).isSome = true)) ∧
  (∀ (p : Params) (i : Instr) (s t : State), s.hlt = true → execWith p i s = .next t →
    t.hlt = true) ∧
  (∀ (p : Params) (s : State), s.hlt = true → ∀ t, stepWith p s ≠ .next t)

/-- The lifetime of OV, the spec's own decision D4 (log 11): OV changes only in a step that executes
a SUB, no step clears it, and it is clear after reset (R26; when SUB sets it is
`OverflowExactlyWhenOutOfRange`).  The step's last opcode is read off IR (D10, D2; log 6, 9). -/
def Obligations.OverflowFlagIsStickyAndSubsOwn : Prop :=
  (∀ mem0, (State.launch mem0).ov = false) ∧
  (∀ (p : Params) (s t : State), stepWith p s = .next t →
    (s.ov = true → t.ov = true) ∧ (t.ov ≠ s.ov → t.ir = 0o21#5))

/-- IO changes only in a step that executes an IOT, and with no device attached never (R22; D8, log
3).  The step's last opcode is read off IR (D10, D2; log 6, 9). -/
def Obligations.IoChangesOnlyThroughHook : Prop :=
  (∀ (p : Params) (s t : State), stepWith p s = .next t → t.io ≠ s.io → t.ir = 0o35#5) ∧
  (∀ s t : State, step s = .next t → t.io = s.io)

/-- MA holds the address of the step's last access and IR the last opcode decoded, unless the step
ends in XctCycle: the spec's own decisions D9 and D10 (R24, R25; log 9).  Which opcodes access memory
at Y is D2, and that IOT does not is D7 (log 6, 13). -/
def Obligations.MaAndIrHoldLastAccessAndDecode : Prop :=
  ∀ (p : Params) (s t : State) (n : Nat) (y : Addr), ChainEnds s.mem s.pc n y →
    n ≤ p.xctDepthLimit → stepWith p s = .next t →
    let i := decode (s.mem.read y)
    t.ir = opcodeField (s.mem.read y) ∧
    t.ma = if i.opcode ∈ [0o01#5, 0o02#5, 0o03#5, 0o10#5, 0o12#5, 0o21#5] then
        effAddr i.indirect i.address s.mem else y

/-- R174, the spec's own decision D13 (log 8): a stop is final for the step relation; leaving it
needs a reset or a host write of HLT (D14; log 7). -/
def Obligations.StopIsFinal : Prop :=
  ∀ (p : Params) (s : State), s.hlt = true →
    (∀ t, Reaches p s t → t = s) ∧
    (∃ t, stepWith p (s.hostWrite (.hlt false)) = .next t) ∧
    (∀ mem0, ∃ t, stepWith p (s.hostWrite (.reset mem0)) = .next t)

/-- A run has at most one end: two final states reached from one state are the same, so a run that
ends normally is not also a faulted one (R92, R94; the end of a run is the spec's own decision D13,
log 8; a run is steps alone, D14, log 7). -/
def Obligations.RunHasAtMostOneEnd : Prop :=
  ∀ (p : Params) (s t u : State), Reaches p s t → Reaches p s u → t.hlt = true → u.hlt = true →
    t = u ∧ (EndsNormally p s t → ¬ u.Faulted)

/-! ## Arithmetic -/

/-- R131: the end-around-carry sum of two words, with no second carry. -/
def Obligations.EndAroundCarrySum : Prop :=
  ∀ x y : Word,
    let s := x.toNat + y.toNat
    (s ≤ 0o777777 → (endAroundSum x y).toNat = s) ∧
    (s > 0o777777 → (endAroundSum x y).toNat = (s + 1) &&& 0o777777 ∧
      (endAroundSum x y).toNat + 2 ^ 18 = s + 1)

/-- Negation is the complement and changes the sign of the value; the values are those of -131071 to
131071, and the zeros are the two words of R14 (R14, R130; that bit 17 is the sign is PRESUMED, log
5). -/
def Obligations.NegationNegatesValue : Prop :=
  ∀ x : Word, negate x = ~~~x ∧ val (negate x) = -val x ∧ -131071 ≤ val x ∧ val x ≤ 131071 ∧
    (val x = 0 ↔ x = 0o000000#18 ∨ x = 0o777777#18)

/-- R133, the spec's own decision D4 (log 11), with bit 17 as the sign (log 5): the overflow
condition is the sign rule on the adder's operands, SUB ors it into OV, and it holds exactly when
the true difference is out of range. -/
def Obligations.OverflowExactlyWhenOutOfRange : Prop :=
  (∀ a c r : Word,
    (ovCond a c r = true ↔ a.getLsbD 17 ≠ c.getLsbD 17 ∧ r.getLsbD 17 ≠ a.getLsbD 17) ∧
    (ovCond a c r = true ↔ (negate a).getLsbD 17 = c.getLsbD 17 ∧
      (negate r).getLsbD 17 ≠ (negate a).getLsbD 17)) ∧
  (∀ a c : Word, ovCond a c (subtract a c) = true ↔
    val a - val c < -131071 ∨ 131071 < val a - val c) ∧
  (∀ (ind : Bool) (a : Addr) (s : State), ∃ t, exec (.sub ind a) s = .next t ∧
    t.ov = (s.ov || ovCond s.ac (s.mem.read (effAddr ind a s.mem)) t.ac))

/-- R134, which the spec derives from R131 to R133: the carry happens exactly when c > a; without
overflow the result is the true difference, a zero result being +0 but for -0 minus +0; with
overflow it is off by 2^18 - 1; and the result depends on the two operands alone.  Every clause with
`val` or `ovCond` rests on bit 17 as the sign, which is PRESUMED (log 5), and `ovCond` on the spec's
own decision D4 (log 11). -/
def Obligations.SubtractionLaws : Prop :=
  (∀ a c : Word,
    ((a ^^^ 0o777777#18).toNat + c.toNat > 0o777777 ↔ a < c) ∧
    (ovCond a c (subtract a c) = false →
      val (subtract a c) = val a - val c ∧
      (val (subtract a c) = 0 → ¬ (a = 0o777777#18 ∧ c = 0) → subtract a c = 0)) ∧
    (ovCond a c (subtract a c) = true → val a - val c > 131071 →
      val (subtract a c) = val a - val c - 262143) ∧
    (ovCond a c (subtract a c) = true → val a - val c < -131071 →
      val (subtract a c) = val a - val c + 262143)) ∧
  (∀ (ind ind' : Bool) (a a' : Addr) (s s' : State), s.ac = s'.ac →
    s.mem.read (effAddr ind a s.mem) = s'.mem.read (effAddr ind' a' s'.mem) →
    ∃ t t', exec (.sub ind a) s = .next t ∧ exec (.sub ind' a') s' = .next t' ∧ t.ac = t'.ac ∧
      t = { s with ac := t.ac, ov := t.ov, ma := t.ma, ir := t.ir, pc := t.pc })

/-! ## Memory -/

/-- R44, R45, R50: a write is read back at its own address and at no other, so the last write at an
address wins and writes elsewhere commute.  That memories that read alike are equal data, and that a
write keeps the canonical form this takes, is the model's own (log 1). -/
def Obligations.MemoryWritesOverwriteAndCommute : Prop :=
  ∀ m : Memory, m.wf = true →
    (∀ a v, (m.write a v).read a = v ∧ (m.write a v).wf = true) ∧
    (∀ a b v, b ≠ a → (m.write a v).read b = m.read b) ∧
    (∀ n : Memory, n.wf = true → (∀ a, m.read a = n.read a) → m = n) ∧
    (∀ a v w, (m.write a v).write a w = m.write a w) ∧
    (∀ a b v w, a ≠ b → (m.write a v).write b w = (m.write b w).write a v) ∧
    (∀ a, m.write a (m.read a) = m)

/-- A step changes memory only by a DAC: one word, at MA, and its new value is AC (R45, R87).  The
address and the opcode are read off MA and IR (D9, D10, D2; log 6, 9); the canonical form that the
last clause assumes is the model's own (log 1). -/
def Obligations.OnlyDepositWritesMemory : Prop :=
  ∀ (p : Params) (s t : State), stepWith p s = .next t →
    t.mem = s.mem ∨
      (t.ir = 0o12#5 ∧ t.mem = s.mem.write t.ma s.ac ∧
        (∀ x, x ≠ t.ma → t.mem.read x = s.mem.read x) ∧
        (s.mem.wf = true → t.mem.read t.ma = s.ac))

/-- A word that a DAC writes at the next address is the very next instruction (R53; the canonical form
assumed of memory is the model's own, log 1). -/
def Obligations.StoredWordIsFetchedNext : Prop :=
  ∀ (s : State) (ind : Bool) (a : Addr), s.mem.wf = true → s.hlt = false →
    decode (s.mem.read s.pc) = .dac ind a → effAddr ind a s.mem = s.pc + 1 →
    ∃ t, step s = .next t ∧ step t = exec (decode s.ac) t

/-- The loader puts a program's words at consecutive addresses, wrapping at the top of memory, and
touches no other word (R54, R192, R43; the loader and the canonical form it keeps are the model's own,
log 1, 2). -/
def Obligations.LoaderPlacesConsecutiveWords : Prop :=
  ∀ (m : Memory) (a : Addr) (ws : List Word), m.wf = true → ws.length ≤ 4096 →
    (m.load a ws).wf = true ∧
    (∀ k (h : k < ws.length), (m.load a ws).read (a + BitVec.ofNat 12 k) = ws[k]) ∧
    (∀ k, ws.length ≤ k → k < 4096 →
      (m.load a ws).read (a + BitVec.ofNat 12 k) = m.read (a + BitVec.ofNat 12 k))

/-! ## Devices, the host and the trace -/

/-- Two devices give the same step but for AC and IO, and the very same step unless an IOT was
executed, that is unless the chain ends at one within the limit: a hook reaches nothing else (R151,
the spec's own decision D8; log 3; the limit is D5, log 10; IOT's opcode is D2, log 6). -/
def Obligations.HookReachesOnlyAcAndIo : Prop :=
  ∀ (p q : Params) (s t u : State), p.xctDepthLimit = q.xctDepthLimit →
    stepWith p s = .next t → stepWith q s = .next u →
    u = { t with ac := u.ac, io := u.io } ∧
    ((∃ n y, n ≤ p.xctDepthLimit ∧ ChainEnds s.mem s.pc n y ∧
        opcodeField (s.mem.read y) = 0o35#5) ∨ u = t)

/-- For an unknown device an IOT may answer any pair of words, and nothing but AC and IO is open
(R150, R151, the free draw, decision D8; log 15).  MA is the fetch address for either i by D7 and D9
(log 9, 13), IR the opcode by D10 and D2 (log 6, 9); R151 says neither. -/
def Obligations.UnknownDeviceAnswersAnyPair : Prop :=
  ∀ (limit : Nat) (h : 1 ≤ limit) (s t : State) (ind : Bool) (a : Addr), s.hlt = false →
    decode (s.mem.read s.pc) = .iot ind a →
    (StepDraw limit h s t ↔ ∃ v w,
      t = { s with ac := v, io := w, ma := s.pc, ir := 0o35#5, pc := s.pc + 1 })

/-- A host write changes what it names and nothing else (R90, the spec's own decision D14; log 7), and
keeps memory in canonical form, the model's own (log 1).  A host's reset is `StopIsFinal` and
`ResetZeroesEverythingButMemory`. -/
def Obligations.HostWriteChangesOnlyItsTarget : Prop :=
  ∀ s : State, s.mem.wf = true →
    (∀ a v, (s.hostWrite (.mem a v)).mem.read a = v ∧
      (∀ x, x ≠ a → (s.hostWrite (.mem a v)).mem.read x = s.mem.read x) ∧
      (s.hostWrite (.mem a v)).mem.wf = true ∧
      s.hostWrite (.mem a v) = { s with mem := (s.hostWrite (.mem a v)).mem }) ∧
    (∀ v, s.hostWrite (.ac v) = { s with ac := v }) ∧
    (∀ v, s.hostWrite (.io v) = { s with io := v }) ∧
    (∀ v, s.hostWrite (.pc v) = { s with pc := v }) ∧
    (∀ v, s.hostWrite (.ma v) = { s with ma := v }) ∧
    (∀ v, s.hostWrite (.ir v) = { s with ir := v }) ∧
    (∀ v, s.hostWrite (.ov v) = { s with ov := v }) ∧
    (∀ v, s.hostWrite (.hlt v) = { s with hlt := v }) ∧
    (∀ v, s.hostWrite (.xf v) = { s with xf := v })

/-- R91, the event shape being the spec's own decision D18 (log 16): a step emits one event per
decode, at depths 0, 1, … along the XCT chain, then the snapshot of the state after it, its
registers and flags; a chain that ends within the limit is emitted whole, a longer one up to the
limit (D5; log 10). -/
def Obligations.TraceFollowsTheDecodes : Prop :=
  ∀ (p : Params) (s t : State), stepWith p s = .next t →
    ∃ evs, stepTrace p s = some (evs,
        { ac := t.ac, io := t.io, pc := t.pc, ma := t.ma, ir := t.ir, ov := t.ov, hlt := t.hlt,
          xf := t.xf }) ∧
      (∀ k (h : k < evs.length), ∃ x, chainAt s.mem s.pc k = some x ∧
        evs[k] = ⟨k, s.mem.read x, opcodeField (s.mem.read x), indirectField (s.mem.read x),
          addressField (s.mem.read x)⟩) ∧
      (∀ n y, ChainEnds s.mem s.pc n y → n ≤ p.xctDepthLimit → evs.length = n + 1) ∧
      ((chainAt s.mem s.pc (p.xctDepthLimit + 1)).isSome = true →
        evs.length = p.xctDepthLimit + 1)

/-! ## Reset and the invariant -/

/-- The first clause is R190: after a launch with any image every register is zero, every flag false,
and memory is the image.  The second, that `State.reset` is the launch with nothing listed, is the
model's own choice (log 2): R54 and D12 leave MEM0 to the launch. -/
def Obligations.ResetZeroesEverythingButMemory : Prop :=
  (∀ mem0 : Memory, State.launch mem0 =
    { mem := mem0, ac := 0, io := 0, pc := 0, ma := 0, ir := 0, ov := false, hlt := false,
      xf := false }) ∧
  State.reset = State.launch []

/-- R191, which the spec derives from R190: the first step fetches MEM[0]. -/
def Obligations.FirstStepFetchesAddressZero : Prop :=
  ∀ mem0 : Memory, step (State.launch mem0) = exec (decode (mem0.read 0)) (State.launch mem0) ∧
    (∀ i, mem0.read 0 = encode i → step (State.launch mem0) = exec i (State.launch mem0))

/-- The invariant (canonical memory, the model's own, log 1; XF only with HLT, R28 by D5, log 10)
holds after reset, with nothing listed (log 2) and with any canonical image. -/
def Obligations.ResetSatisfiesInvariant : Prop :=
  State.reset.Inv ∧ ∀ mem0 : Memory, mem0.wf = true → (State.launch mem0).Inv

/-- Every step keeps the invariant, from every state that has it, with any device and any limit
(R28 by D5, log 10; R45; the canonical form is the model's own, log 1). -/
def Obligations.EveryStepKeepsInvariant : Prop :=
  (∀ (p : Params) (s t : State), s.Inv → stepWith p s = .next t → t.Inv) ∧
  (∀ s t : State, s.Inv → step s = .next t → t.Inv)

/-- Along every run from a launch, a run being steps alone (D14; log 7): the invariant, whose canonical
form of memory is the model's own (log 1), and XF set only in the final state of a fault (R28 by D5,
log 10; R92 by D13, log 8). -/
def Obligations.RunsStayInInvariant : Prop :=
  ∀ (p : Params) (mem0 : Memory) (t : State), mem0.wf = true → Reaches p (State.launch mem0) t →
    t.Inv ∧ (t.xf = true → ∀ u, Reaches p t u → u = t)
end

