-- ==== Sys2Proof/Laws/Codec.lean ====
section
/-! SUPPORT. The fields of an encoded word are the fields it was encoded from, and a word is its
three fields (`spec/30_encoding.md` R61, R63). -/

namespace Sys2Proof

theorem opcodeField_encodeFields (op : Opcode) (ind : Bool) (a : Addr) :
    opcodeField (encodeFields op ind a) = op := by
  apply BitVec.eq_of_getLsbD_eq
  intro k hk
  have ha : a.getLsbD (13 + k) = false := BitVec.getLsbD_of_ge _ _ (by omega)
  have hi : (BitVec.ofBool ind).getLsbD (13 + k - 12) = false :=
    BitVec.getLsbD_of_ge _ _ (by omega)
  simp [opcodeField, encodeFields, hk, ha, hi, show 13 + k < 18 by omega,
    show ¬ 13 + k < 13 by omega, show ¬ 13 + k < 12 by omega]

theorem indirectField_encodeFields (op : Opcode) (ind : Bool) (a : Addr) :
    indirectField (encodeFields op ind a) = ind := by
  cases ind <;> simp [indirectField, encodeFields]

theorem addressField_encodeFields (op : Opcode) (ind : Bool) (a : Addr) :
    addressField (encodeFields op ind a) = a := by
  apply BitVec.eq_of_getLsbD_eq
  intro k hk
  simp [addressField, encodeFields, hk, show k < 18 by omega, show k < 13 by omega]

/-- The three fields cover all 18 bits: a word with the same fields is the same word (R61). -/
theorem word_eq_of_fields {w w' : Word} (ho : opcodeField w = opcodeField w')
    (hi : indirectField w = indirectField w') (ha : addressField w = addressField w') : w = w' := by
  apply BitVec.eq_of_getLsbD_eq
  intro k hk
  rcases Nat.lt_trichotomy k 12 with c | c | c
  · have := congrArg (fun x : Addr => x.getLsbD k) ha
    simpa [addressField, c] using this
  · subst c; exact hi
  · have := congrArg (fun x : Opcode => x.getLsbD (k - 13)) ho
    simpa [opcodeField, show k - 13 < 5 by omega, show 13 + (k - 13) = k by omega] using this

/-- The opcode map is one to one: an instruction with this opcode and these fields. -/
theorem instrOf_fields (i : Instr) : instrOf i.opcode i.indirect i.address = i := by
  cases i <;> rfl

@[simp] theorem indirect_instrOf (op : Opcode) (ind : Bool) (a : Addr) :
    (instrOf op ind a).indirect = ind := by
  unfold instrOf; split <;> rfl

@[simp] theorem address_instrOf (op : Opcode) (ind : Bool) (a : Addr) :
    (instrOf op ind a).address = a := by
  unfold instrOf; split <;> rfl

/-- Every opcode value has its own constructor (R65, R66). -/
@[simp] theorem opcode_instrOf (op : Opcode) (ind : Bool) (a : Addr) :
    (instrOf op ind a).opcode = op := by
  have h : ∀ op : Opcode, (instrOf op false 0).opcode = op := by decide
  refine Eq.trans ?_ (h op)
  unfold instrOf; split <;> rfl

/-- The constructor the decoder gives carries the word's opcode field (R62). -/
@[simp] theorem opcode_decode (w : Word) : (decode w).opcode = opcodeField w :=
  opcode_instrOf _ _ _

@[simp] theorem indirect_decode (w : Word) : (decode w).indirect = indirectField w :=
  indirect_instrOf _ _ _

@[simp] theorem address_decode (w : Word) : (decode w).address = addressField w :=
  address_instrOf _ _ _

/-- The typed instruction passes its width check, whatever its fields (R67). -/
theorem Instr.wf_always (i : Instr) : i.wf = true := decide_eq_true i.address.isLt

end Sys2Proof
end

