-- ==== Sys2Proof/Laws/Memory.lean ====
section
/-! SUPPORT. The laws of core memory: a read sees the last write, other addresses keep their word,
and every write keeps the canonical form. -/

namespace Sys2Proof.Machine

/-- A larger lower bound is a stronger claim. -/
theorem Memory.wfFrom_mono {lo lo' : Nat} (h : lo ≤ lo') {m : Memory} :
    m.wfFrom lo' = true → m.wfFrom lo = true := by
  cases m with
  | nil => exact id
  | cons e m =>
    simp only [Memory.wfFrom, Bool.and_eq_true, decide_eq_true_eq]
    rintro ⟨⟨⟨h1, h2⟩, h3⟩, h4⟩
    exact ⟨⟨⟨h.trans h1, h2⟩, h3⟩, h4⟩

/-- A key below every entry is unlisted. -/
theorem Memory.lookup_below {lo k : Nat} (hk : k < lo) {m : Memory} :
    m.wfFrom lo = true → m.lookup k = Memory.unlisted := by
  induction m generalizing lo with
  | nil => intro; rfl
  | cons e m ih =>
    obtain ⟨j, v⟩ := e
    simp only [Memory.wfFrom, Bool.and_eq_true, decide_eq_true_eq]
    rintro ⟨⟨⟨h1, -⟩, -⟩, h4⟩
    rw [Memory.lookup, if_neg (by omega), ih (by omega) h4]

/-- A write leaves every other key alone, whatever the list looks like. -/
theorem Memory.lookup_update_other {k j : Nat} (h : j ≠ k) (v : Word) (m : Memory) :
    (m.update k v).lookup j = m.lookup j := by
  induction m with
  | nil => rw [Memory.update]; split <;> simp [Memory.lookup, h.symm]
  | cons e m ih =>
    obtain ⟨i, u⟩ := e
    rw [Memory.update]
    split_ifs with h1 h2 h3 h4
    · rfl
    · simp [Memory.lookup, h.symm]
    · subst h3; simp [Memory.lookup, h.symm]
    · subst h3; simp [Memory.lookup, h.symm]
    · simp only [Memory.lookup, ih]

/-- A write is read back, in canonical form. -/
theorem Memory.lookup_update_same {lo k : Nat} (v : Word) {m : Memory} :
    m.wfFrom lo = true → (m.update k v).lookup k = v := by
  induction m generalizing lo with
  | nil => intro; rw [Memory.update]; split <;> simp_all [Memory.lookup]
  | cons e m ih =>
    obtain ⟨j, u⟩ := e
    intro h
    have h' := h
    simp only [Memory.wfFrom, Bool.and_eq_true, decide_eq_true_eq] at h
    obtain ⟨⟨⟨h1, h2⟩, h3⟩, h4⟩ := h
    rw [Memory.update]
    split_ifs with c1 c2 c3 c4
    · rw [Memory.lookup, if_neg (by omega), Memory.lookup_below (by omega) h4, c2]
    · simp [Memory.lookup]
    · rw [Memory.lookup_below (by omega) h4, c4]
    · simp [Memory.lookup]
    · rw [Memory.lookup, if_neg (by omega), ih h4]

/-- A write at a key of memory keeps the canonical form. -/
theorem Memory.wfFrom_update {lo k : Nat} (hlo : lo ≤ k) (hk : k < memWords) (v : Word)
    {m : Memory} : m.wfFrom lo = true → (m.update k v).wfFrom lo = true := by
  induction m generalizing lo with
  | nil => intro; rw [Memory.update]; split <;> simp_all [Memory.wfFrom]
  | cons e m ih =>
    obtain ⟨j, u⟩ := e
    intro h
    have h' := h
    simp only [Memory.wfFrom, Bool.and_eq_true, decide_eq_true_eq] at h
    obtain ⟨⟨⟨h1, h2⟩, h3⟩, h4⟩ := h
    rw [Memory.update]
    split_ifs with c1 c2 c3 c4
    · exact h'
    · simp [Memory.wfFrom, hlo, hk, c2, h2, h3, h4, show k + 1 ≤ j by omega]
    · exact Memory.wfFrom_mono (by omega) h4
    · simp [Memory.wfFrom, h1, h2, c4, c3, h4]
    · simp [Memory.wfFrom, h1, h2, h3, ih (show j + 1 ≤ k by omega) h4]

/-- R45: a written word is read back. -/
theorem Memory.read_write_same {m : Memory} (h : m.wf = true) (a : Addr) (v : Word) :
    (m.write a v).read a = v :=
  Memory.lookup_update_same v h

/-- R45: "leaves every other word unchanged". -/
theorem Memory.read_write_other (m : Memory) {a b : Addr} (h : b ≠ a) (v : Word) :
    (m.write a v).read b = m.read b :=
  Memory.lookup_update_other (fun e => h (BitVec.eq_of_toNat_eq e)) v m

/-- Every memory operation keeps the canonical form. -/
theorem Memory.wf_write {m : Memory} (h : m.wf = true) (a : Addr) (v : Word) :
    (m.write a v).wf = true :=
  Memory.wfFrom_update (Nat.zero_le _) a.isLt v h

/-- So does the loader. -/
theorem Memory.wf_load {m : Memory} (h : m.wf = true) (a : Addr) (ws : List Word) :
    (m.load a ws).wf = true := by
  induction ws generalizing m a with
  | nil => exact h
  | cons w ws ih => exact ih (Memory.wf_write h a w) (a + 1)

/-- The memory with nothing listed is canonical. -/
@[simp] theorem Memory.wf_nil : Memory.wf [] = true := rfl

/-- Every word of it reads as the unlisted word. -/
@[simp] theorem Memory.read_nil (a : Addr) : Memory.read [] a = Memory.unlisted := rfl

/-- Canonical memories with the same contents are the same data, read from `lo` up. -/
theorem Memory.eq_of_lookup_eq {lo : Nat} {m n : Memory} (hm : m.wfFrom lo = true)
    (hn : n.wfFrom lo = true) (h : ∀ k, lo ≤ k → m.lookup k = n.lookup k) : m = n := by
  induction m generalizing lo n with
  | nil =>
    cases n with
    | nil => rfl
    | cons e n =>
      simp only [Memory.wfFrom, Bool.and_eq_true, decide_eq_true_eq] at hn
      have := h e.1 hn.1.1.1
      simp [Memory.lookup] at this
      exact absurd this.symm hn.1.2
  | cons e m ih =>
    obtain ⟨j, u⟩ := e
    have hm' := hm
    simp only [Memory.wfFrom, Bool.and_eq_true, decide_eq_true_eq] at hm
    obtain ⟨⟨⟨a1, a2⟩, a3⟩, a4⟩ := hm
    cases n with
    | nil => exact absurd (by simpa [Memory.lookup] using h j a1) a3
    | cons e' n =>
      obtain ⟨i, w⟩ := e'
      have hn' := hn
      simp only [Memory.wfFrom, Bool.and_eq_true, decide_eq_true_eq] at hn
      obtain ⟨⟨⟨b1, b2⟩, b3⟩, b4⟩ := hn
      have hji : j = i := by
        rcases Nat.lt_trichotomy j i with c | c | c
        · have := h j a1
          rw [Memory.lookup, if_pos rfl, Memory.lookup, if_neg (by omega),
            Memory.lookup_below (by omega) b4] at this
          exact absurd this a3
        · exact c
        · have := h i b1
          rw [Memory.lookup, if_neg (by omega), Memory.lookup_below (by omega) a4,
            Memory.lookup, if_pos rfl] at this
          exact absurd this.symm b3
      subst hji
      have huw : u = w := by simpa [Memory.lookup] using h j a1
      subst huw
      congr 1
      refine ih a4 b4 fun k hk => ?_
      have := h k (by omega)
      rwa [Memory.lookup, if_neg (by omega), Memory.lookup, if_neg (by omega)] at this

/-- A canonical memory lists only addresses of memory. -/
theorem Memory.lookup_above {lo k : Nat} (hk : memWords ≤ k) {m : Memory} :
    m.wfFrom lo = true → m.lookup k = Memory.unlisted := by
  induction m generalizing lo with
  | nil => intro; rfl
  | cons e m ih =>
    obtain ⟨j, v⟩ := e
    simp only [Memory.wfFrom, Bool.and_eq_true, decide_eq_true_eq]
    rintro ⟨⟨⟨-, h2⟩, -⟩, h4⟩
    rw [Memory.lookup, if_neg (by omega), ih h4]

/-- Equal contents are equal data. -/
theorem Memory.eq_of_read_eq {m n : Memory} (hm : m.wf = true) (hn : n.wf = true)
    (h : ∀ a, m.read a = n.read a) : m = n := by
  refine Memory.eq_of_lookup_eq hm hn fun k _ => ?_
  rcases Nat.lt_or_ge k memWords with c | c
  · have := h (BitVec.ofNat 12 k)
    simpa [Memory.read, BitVec.toNat_ofNat, Nat.mod_eq_of_lt (show k < 4096 from c)] using this
  · rw [Memory.lookup_above c hm, Memory.lookup_above c hn]

end Sys2Proof.Machine
end

