-- ==== Sys2Proof/Laws/State.lean ====
section
/-! SUPPORT. One lemma per field and write of `State`: a write sets its own field and no other. -/

namespace Sys2Proof.Machine

section
variable (s : State) (x : Memory)
@[simp] theorem State.setMem_mem : (s.setMem x).mem = x := rfl
@[simp] theorem State.setMem_ac : (s.setMem x).ac = s.ac := rfl
@[simp] theorem State.setMem_io : (s.setMem x).io = s.io := rfl
@[simp] theorem State.setMem_pc : (s.setMem x).pc = s.pc := rfl
@[simp] theorem State.setMem_ma : (s.setMem x).ma = s.ma := rfl
@[simp] theorem State.setMem_ir : (s.setMem x).ir = s.ir := rfl
@[simp] theorem State.setMem_ov : (s.setMem x).ov = s.ov := rfl
@[simp] theorem State.setMem_hlt : (s.setMem x).hlt = s.hlt := rfl
@[simp] theorem State.setMem_xf : (s.setMem x).xf = s.xf := rfl
end

section
variable (s : State) (x : Word)
@[simp] theorem State.setAc_mem : (s.setAc x).mem = s.mem := rfl
@[simp] theorem State.setAc_ac : (s.setAc x).ac = x := rfl
@[simp] theorem State.setAc_io : (s.setAc x).io = s.io := rfl
@[simp] theorem State.setAc_pc : (s.setAc x).pc = s.pc := rfl
@[simp] theorem State.setAc_ma : (s.setAc x).ma = s.ma := rfl
@[simp] theorem State.setAc_ir : (s.setAc x).ir = s.ir := rfl
@[simp] theorem State.setAc_ov : (s.setAc x).ov = s.ov := rfl
@[simp] theorem State.setAc_hlt : (s.setAc x).hlt = s.hlt := rfl
@[simp] theorem State.setAc_xf : (s.setAc x).xf = s.xf := rfl
end

section
variable (s : State) (x : Word)
@[simp] theorem State.setIo_mem : (s.setIo x).mem = s.mem := rfl
@[simp] theorem State.setIo_ac : (s.setIo x).ac = s.ac := rfl
@[simp] theorem State.setIo_io : (s.setIo x).io = x := rfl
@[simp] theorem State.setIo_pc : (s.setIo x).pc = s.pc := rfl
@[simp] theorem State.setIo_ma : (s.setIo x).ma = s.ma := rfl
@[simp] theorem State.setIo_ir : (s.setIo x).ir = s.ir := rfl
@[simp] theorem State.setIo_ov : (s.setIo x).ov = s.ov := rfl
@[simp] theorem State.setIo_hlt : (s.setIo x).hlt = s.hlt := rfl
@[simp] theorem State.setIo_xf : (s.setIo x).xf = s.xf := rfl
end

section
variable (s : State) (x : Addr)
@[simp] theorem State.setPc_mem : (s.setPc x).mem = s.mem := rfl
@[simp] theorem State.setPc_ac : (s.setPc x).ac = s.ac := rfl
@[simp] theorem State.setPc_io : (s.setPc x).io = s.io := rfl
@[simp] theorem State.setPc_pc : (s.setPc x).pc = x := rfl
@[simp] theorem State.setPc_ma : (s.setPc x).ma = s.ma := rfl
@[simp] theorem State.setPc_ir : (s.setPc x).ir = s.ir := rfl
@[simp] theorem State.setPc_ov : (s.setPc x).ov = s.ov := rfl
@[simp] theorem State.setPc_hlt : (s.setPc x).hlt = s.hlt := rfl
@[simp] theorem State.setPc_xf : (s.setPc x).xf = s.xf := rfl
end

section
variable (s : State) (x : Addr)
@[simp] theorem State.setMa_mem : (s.setMa x).mem = s.mem := rfl
@[simp] theorem State.setMa_ac : (s.setMa x).ac = s.ac := rfl
@[simp] theorem State.setMa_io : (s.setMa x).io = s.io := rfl
@[simp] theorem State.setMa_pc : (s.setMa x).pc = s.pc := rfl
@[simp] theorem State.setMa_ma : (s.setMa x).ma = x := rfl
@[simp] theorem State.setMa_ir : (s.setMa x).ir = s.ir := rfl
@[simp] theorem State.setMa_ov : (s.setMa x).ov = s.ov := rfl
@[simp] theorem State.setMa_hlt : (s.setMa x).hlt = s.hlt := rfl
@[simp] theorem State.setMa_xf : (s.setMa x).xf = s.xf := rfl
end

section
variable (s : State) (x : Opcode)
@[simp] theorem State.setIr_mem : (s.setIr x).mem = s.mem := rfl
@[simp] theorem State.setIr_ac : (s.setIr x).ac = s.ac := rfl
@[simp] theorem State.setIr_io : (s.setIr x).io = s.io := rfl
@[simp] theorem State.setIr_pc : (s.setIr x).pc = s.pc := rfl
@[simp] theorem State.setIr_ma : (s.setIr x).ma = s.ma := rfl
@[simp] theorem State.setIr_ir : (s.setIr x).ir = x := rfl
@[simp] theorem State.setIr_ov : (s.setIr x).ov = s.ov := rfl
@[simp] theorem State.setIr_hlt : (s.setIr x).hlt = s.hlt := rfl
@[simp] theorem State.setIr_xf : (s.setIr x).xf = s.xf := rfl
end

section
variable (s : State) (x : Bool)
@[simp] theorem State.setOv_mem : (s.setOv x).mem = s.mem := rfl
@[simp] theorem State.setOv_ac : (s.setOv x).ac = s.ac := rfl
@[simp] theorem State.setOv_io : (s.setOv x).io = s.io := rfl
@[simp] theorem State.setOv_pc : (s.setOv x).pc = s.pc := rfl
@[simp] theorem State.setOv_ma : (s.setOv x).ma = s.ma := rfl
@[simp] theorem State.setOv_ir : (s.setOv x).ir = s.ir := rfl
@[simp] theorem State.setOv_ov : (s.setOv x).ov = x := rfl
@[simp] theorem State.setOv_hlt : (s.setOv x).hlt = s.hlt := rfl
@[simp] theorem State.setOv_xf : (s.setOv x).xf = s.xf := rfl
end

section
variable (s : State) (x : Bool)
@[simp] theorem State.setHlt_mem : (s.setHlt x).mem = s.mem := rfl
@[simp] theorem State.setHlt_ac : (s.setHlt x).ac = s.ac := rfl
@[simp] theorem State.setHlt_io : (s.setHlt x).io = s.io := rfl
@[simp] theorem State.setHlt_pc : (s.setHlt x).pc = s.pc := rfl
@[simp] theorem State.setHlt_ma : (s.setHlt x).ma = s.ma := rfl
@[simp] theorem State.setHlt_ir : (s.setHlt x).ir = s.ir := rfl
@[simp] theorem State.setHlt_ov : (s.setHlt x).ov = s.ov := rfl
@[simp] theorem State.setHlt_hlt : (s.setHlt x).hlt = x := rfl
@[simp] theorem State.setHlt_xf : (s.setHlt x).xf = s.xf := rfl
end

section
variable (s : State) (x : Bool)
@[simp] theorem State.setXf_mem : (s.setXf x).mem = s.mem := rfl
@[simp] theorem State.setXf_ac : (s.setXf x).ac = s.ac := rfl
@[simp] theorem State.setXf_io : (s.setXf x).io = s.io := rfl
@[simp] theorem State.setXf_pc : (s.setXf x).pc = s.pc := rfl
@[simp] theorem State.setXf_ma : (s.setXf x).ma = s.ma := rfl
@[simp] theorem State.setXf_ir : (s.setXf x).ir = s.ir := rfl
@[simp] theorem State.setXf_ov : (s.setXf x).ov = s.ov := rfl
@[simp] theorem State.setXf_hlt : (s.setXf x).hlt = s.hlt := rfl
@[simp] theorem State.setXf_xf : (s.setXf x).xf = x := rfl
end

/-! ## The other updates, by their fields -/

@[simp] theorem State.launch_mem (m : Memory) : (State.launch m).mem = m := rfl
@[simp] theorem State.launch_pc (m : Memory) : (State.launch m).pc = 0 := rfl
@[simp] theorem State.launch_hlt (m : Memory) : (State.launch m).hlt = false := rfl

@[simp] theorem State.orOv_eq (s : State) (b : Bool) : s.orOv b = s.setOv (s.ov || b) := rfl

/-- The outer instruction moves PC. -/
@[simp] theorem State.advance_zero (s : State) : s.advance 0 = s.setPc (s.pc + 1) := rfl

/-- A nested instruction does not (R111). -/
@[simp] theorem State.advance_succ (d : Nat) (s : State) : s.advance (d + 1) = s := rfl

@[simp] theorem State.stop_undefinedOpcode (s : State) :
    s.stop .undefinedOpcode = s.setHlt true := rfl

@[simp] theorem State.stop_xctCycle (s : State) :
    s.stop .xctCycle = (s.setHlt true).setXf true := rfl

end Sys2Proof.Machine
end

