-- ==== Sys2Proof/Laws/Operands.lean ====
section
/-! SUPPORT. What the operand forms do: the address and word they give, and that MA is all they
write (`spec/40_cycle.md` R83, R85). -/

namespace Sys2Proof.Machine

@[simp] theorem effAddr_direct (a : Addr) (m : Memory) : effAddr false a m = a := rfl

@[simp] theorem effAddr_indirect (a : Addr) (m : Memory) :
    effAddr true a m = addressField (m.read a) := rfl

/-- EA gives Y, and writes MA where it reads a pointer (R83). -/
theorem resolve_eq (ind : Bool) (a : Addr) (s : State) :
    resolve ind a s = (effAddr ind a s.mem, if ind then s.setMa a else s) := by
  cases ind <;> rfl

/-- EA then C(Y): the word at Y, with MA = Y whichever form it was (R85). -/
theorem operand_eq (ind : Bool) (a : Addr) (s : State) :
    operand ind a s = (s.mem.read (effAddr ind a s.mem), s.setMa (effAddr ind a s.mem)) := by
  cases ind <;> rfl

/-- The store writes one word and MA (R121). -/
theorem writeOperand_eq (y : Addr) (v : Word) (s : State) :
    writeOperand y v s = (s.setMem (s.mem.write y v)).setMa y := rfl

end Sys2Proof.Machine
end

