-- ==== Sys2Proof/Laws/Execution.lean ====
section
/-! SUPPORT. What one instruction does at depth d, as one state each; what the frame of an outer
instruction does; and the cases of a nested execution. -/

namespace Sys2Proof.Machine

section
variable (p : Params) (ind : Bool) (a : Addr) (d : Nat) (s : State)

theorem andAt_eq : andAt ind a d s = ((s.setMa (effAddr ind a s.mem)).setAc
    (s.ac &&& s.mem.read (effAddr ind a s.mem))).advance d := by
  simp [andAt, operand_eq]

theorem iorAt_eq : iorAt ind a d s = ((s.setMa (effAddr ind a s.mem)).setAc
    (s.ac ||| s.mem.read (effAddr ind a s.mem))).advance d := by
  simp [iorAt, operand_eq]

theorem xorAt_eq : xorAt ind a d s = ((s.setMa (effAddr ind a s.mem)).setAc
    (s.ac ^^^ s.mem.read (effAddr ind a s.mem))).advance d := by
  simp [xorAt, operand_eq]

theorem lacAt_eq : lacAt ind a d s = ((s.setMa (effAddr ind a s.mem)).setAc
    (s.mem.read (effAddr ind a s.mem))).advance d := by
  simp [lacAt, operand_eq]

theorem dacAt_eq : dacAt ind a d s = ((s.setMem (s.mem.write (effAddr ind a s.mem) s.ac)).setMa
    (effAddr ind a s.mem)).advance d := by
  cases ind <;> rfl

theorem subAt_eq : subAt ind a d s = (((s.setMa (effAddr ind a s.mem)).setOv
    (s.ov || ovCond s.ac (s.mem.read (effAddr ind a s.mem))
      (subtract s.ac (s.mem.read (effAddr ind a s.mem))))).setAc
    (subtract s.ac (s.mem.read (effAddr ind a s.mem)))).advance d := by
  simp [subAt, operand_eq]

theorem iotAt_eq : iotAt p ind a d s = ((s.setAc (p.iotHook a ind s.ac s.io).1).setIo
    (p.iotHook a ind s.ac s.io).2).advance d := rfl

end

/-- The frame of an outer instruction answers a next state whatever its body does: no instruction
faults or is refused (R175, R176). -/
theorem runOuter_next (op : Opcode) (body : State → Option State) (s : State) :
    runOuter op body s = .next
      ((body ((s.setMa s.pc).setIr op)).getD ((s.setHlt true).setXf true)) := by
  unfold runOuter; split <;> simp_all

/-- `exec` is `execWith` at the default parameters of R9. -/
theorem exec_eq_execWith (i : Instr) (s : State) : exec i s = execWith Config.params i s := by
  cases i <;> rfl

/-- `step` is `stepWith` at the default parameters of R9. -/
theorem step_eq_stepWith (s : State) : step s = stepWith Config.params s := by
  simp only [step, stepWith, exec_eq_execWith]

/-- An enabled step executes the decoded word (R81, R82). -/
theorem stepWith_enabled (p : Params) {s : State} (h : s.hlt = false) :
    stepWith p s = execWith p (decode s.fetchWord) s := by
  simp [stepWith, h]

/-- A halted state has no step (R80). -/
theorem stepWith_halted (p : Params) {s : State} (h : s.hlt = true) :
    stepWith p s = .fault s.finalFault := by
  simp [stepWith, h]

/-- The pseudocode of R110, one level: the guard, the target read, the nested execution. -/
theorem xctAt_succ (p : Params) (left : Nat) (ind : Bool) (a : Addr) (d : Nat) (s : State) :
    xctAt p (left + 1) ind a d s =
      (dispatchAt p (fun ind' a' => xctAt p left ind' a' (d + 1))
        (decode (s.mem.read (effAddr ind a s.mem))) (d + 1)
        ((s.setMa (effAddr ind a s.mem)).setIr
          (opcodeField (s.mem.read (effAddr ind a s.mem))))).map (State.advance d) := by
  simp [xctAt, operand_eq]

theorem xctAt_zero (p : Params) (ind : Bool) (a : Addr) (d : Nat) (s : State) :
    xctAt p 0 ind a d s = none := rfl

end Sys2Proof.Machine
end

