-- ==== Sys2Proof/Laws/Chain.lean ====
section
/-! SUPPORT. What a step can do, said once: it follows the chain of XCT words from PC, and either the
chain is longer than the limit and the step ends in XctCycle, or it executes the word the chain ends
at (`spec/42_execute.md` R110 to R113). -/

namespace Sys2Proof.Machine

/-- A chain of two parts has its first part. -/
theorem bind_isSome {α β : Type} {o : Option α} {f : α → Option β} :
    (o.bind f).isSome = true → ∃ x, o = some x ∧ (f x).isSome = true := by
  cases o with
  | none => intro h; cases h
  | some x => exact fun h => ⟨x, rfl, h⟩

/-- The chain from the second address on. -/
theorem chainAt_succ (m : Memory) (x : Addr) (n : Nat) :
    chainAt m x (n + 1) = (chainNext m x).bind (fun x' => chainAt m x' n) := by
  induction n with
  | zero => simp [chainAt]
  | succ n ih => rw [chainAt, ih]; cases h : chainNext m x <;> simp [chainAt]

/-- A chain that has `n` words has every shorter piece. -/
theorem chainAt_isSome_mono {m : Memory} {x : Addr} {n k : Nat} (h : k ≤ n) :
    (chainAt m x n).isSome = true → (chainAt m x k).isSome = true := by
  induction h with
  | refl => exact id
  | step _ ih =>
    intro hs
    refine ih ?_
    rw [chainAt] at hs
    obtain ⟨y, hy, -⟩ := bind_isSome hs
    simp [hy]

theorem chainNext_of_xct {m : Memory} {x : Addr} {ind : Bool} {a : Addr}
    (h : decode (m.read x) = .xct ind a) : chainNext m x = some (effAddr ind a m) := by
  simp [chainNext, h]

/-- A word that continues the chain is an XCT. -/
theorem xct_of_chainNext {m : Memory} {x y : Addr} (h : chainNext m x = some y) :
    ∃ ind a, decode (m.read x) = .xct ind a ∧ effAddr ind a m = y := by
  unfold chainNext at h
  split at h
  · exact ⟨_, _, ‹_›, by simpa using h⟩
  · cases h

/-- Every chain ends within `k` XCT words or has more than `k`. -/
theorem chain_ends_or_longer (m : Memory) (x : Addr) (k : Nat) :
    (∃ n y, n ≤ k ∧ ChainEnds m x n y) ∨ (chainAt m x (k + 1)).isSome = true := by
  induction k with
  | zero =>
    cases h : chainNext m x with
    | none => exact .inl ⟨0, x, le_rfl, rfl, h⟩
    | some y => right; simp [chainAt, h]
  | succ k ih =>
    obtain ⟨n, y, hn, hc⟩ | h := ih
    · exact .inl ⟨n, y, by omega, hc⟩
    · obtain ⟨y, hy⟩ := Option.isSome_iff_exists.mp h
      cases hz : chainNext m y with
      | none => exact .inl ⟨k + 1, y, le_rfl, hy, hz⟩
      | some z => right; rw [chainAt, hy]; simp [hz]

/-- A chain does not end and go on. -/
theorem ChainEnds.not_longer {m : Memory} {x y : Addr} {n k : Nat} (h : ChainEnds m x n y)
    (hk : n < k) : chainAt m x k = none := by
  have h1 : chainAt m x (n + 1) = none := by simp [chainAt, h.1, h.2]
  by_contra hne
  have := chainAt_isSome_mono (show n + 1 ≤ k from hk) (Option.isSome_iff_ne_none.mpr hne)
  simp [h1] at this

/-- The one effect a word that is no XCT has at depth d; the state itself for an XCT. -/
def leafAt (p : Params) (i : Instr) (d : Nat) (s : State) : State :=
  (dispatchAt p (fun _ _ t => some t) i d s).getD s

/-- A word that is no XCT never looks at the nested executor and raises nothing. -/
theorem dispatchAt_leaf (p : Params) (f : Bool → Addr → State → Option State) {i : Instr}
    (h : ∀ ind a, i ≠ .xct ind a) (d : Nat) (s : State) :
    dispatchAt p f i d s = some (leafAt p i d s) := by
  cases i <;> first | rfl | exact absurd rfl (h _ _)

theorem not_xct_of_chainNext_none {m : Memory} {x : Addr} (h : chainNext m x = none) :
    ∀ ind a, decode (m.read x) ≠ .xct ind a := by
  intro ind a hd
  simp [chainNext_of_xct hd] at h

/-- An XCT within the limit has the effect of the word its chain ends at, with MA and IR that
word's and the XCT's own Advance after it. -/
theorem xctAt_of_chainEnds (p : Params) {m : Memory} {n : Nat} {y : Addr} :
    ∀ {ind : Bool} {a : Addr} {d left : Nat} {s : State}, s.mem = m →
      ChainEnds m (effAddr ind a m) n y → n < left →
      xctAt p left ind a d s = some ((leafAt p (decode (m.read y)) (d + n + 1)
        ((s.setMa y).setIr (opcodeField (m.read y)))).advance d) := by
  induction n with
  | zero =>
    intro ind a d left s hs hc hl
    obtain ⟨left, rfl⟩ : ∃ l, left = l + 1 := ⟨left - 1, by omega⟩
    subst hs
    obtain ⟨h0, h1⟩ := hc
    obtain rfl : effAddr ind a s.mem = y := by simpa [chainAt] using h0
    rw [xctAt_succ, dispatchAt_leaf p _ (not_xct_of_chainNext_none h1)]
    rfl
  | succ n ih =>
    intro ind a d left s hs hc hl
    obtain ⟨left, rfl⟩ : ∃ l, left = l + 1 := ⟨left - 1, by omega⟩
    subst hs
    obtain ⟨h0, h1⟩ := hc
    rw [chainAt_succ] at h0
    obtain ⟨x', hx, hx'⟩ := Option.bind_eq_some_iff.mp h0
    obtain ⟨ind', a', hd, rfl⟩ := xct_of_chainNext hx
    rw [xctAt_succ, hd]
    simp only [dispatchAt]
    rw [ih (by rfl) ⟨hx', h1⟩ (by omega)]
    simp only [State.advance_succ, Option.map_some]
    rw [show d + 1 + n + 1 = d + (n + 1) + 1 by omega]
    rfl

/-- An XCT whose chain is longer than the limit raises XctCycle (R113). -/
theorem xctAt_of_longer (p : Params) {m : Memory} {left : Nat} :
    ∀ {ind : Bool} {a : Addr} {d : Nat} {s : State}, s.mem = m →
      (chainAt m (effAddr ind a m) left).isSome = true → xctAt p left ind a d s = none := by
  induction left with
  | zero => intros; rfl
  | succ left ih =>
    intro ind a d s hs hc
    subst hs
    rw [chainAt_succ] at hc
    obtain ⟨x', hx, hx'⟩ := bind_isSome hc
    obtain ⟨ind', a', hd, rfl⟩ := xct_of_chainNext hx
    rw [xctAt_succ, hd]
    simp only [dispatchAt]
    rw [ih (by rfl) hx']
    rfl

/-- The state after a chain of `n` XCT words that ends at the word at `y`. -/
def chainEffect (p : Params) (s : State) (n : Nat) (y : Addr) : State :=
  let t := leafAt p (decode (s.mem.read y)) n
    ((s.setMa y).setIr (opcodeField (s.mem.read y)))
  if n = 0 then t else t.advance 0

/-- A step whose chain ends within the limit executes the word it ends at (R110, R111). -/
theorem stepWith_of_chainEnds (p : Params) {s : State} {n : Nat} {y : Addr}
    (h : s.hlt = false) (hc : ChainEnds s.mem s.pc n y) (hn : n ≤ p.xctDepthLimit) :
    stepWith p s = .next (chainEffect p s n y) := by
  rw [stepWith_enabled p h, execWith, opcode_decode, State.fetchWord]
  cases n with
  | zero =>
    obtain ⟨h0, h1⟩ := hc
    obtain rfl : s.pc = y := by simpa [chainAt] using h0
    simp only [runOuter, dispatchAt_leaf p _ (not_xct_of_chainNext_none h1)]
    rfl
  | succ n =>
    obtain ⟨h0, h1⟩ := hc
    rw [chainAt_succ] at h0
    obtain ⟨x', hx, hx'⟩ := Option.bind_eq_some_iff.mp h0
    obtain ⟨ind', a', hd, rfl⟩ := xct_of_chainNext hx
    rw [hd]
    simp only [runOuter, dispatchAt]
    rw [xctAt_of_chainEnds p (s := (s.setMa s.pc).setIr _) (m := s.mem) rfl ⟨hx', h1⟩ (by omega)]
    simp only [chainEffect, if_neg (Nat.succ_ne_zero n), Nat.zero_add]
    rfl

/-- A step whose chain is longer than the limit ends in XctCycle: the state from before it, with HLT
and XF set (R113). -/
theorem stepWith_of_longer (p : Params) {s : State} (h : s.hlt = false)
    (hc : (chainAt s.mem s.pc (p.xctDepthLimit + 1)).isSome = true) :
    stepWith p s = .next (s.stop .xctCycle) := by
  rw [stepWith_enabled p h, execWith, State.fetchWord]
  rw [chainAt_succ] at hc
  obtain ⟨x', hx, hx'⟩ := bind_isSome hc
  obtain ⟨ind', a', hd, rfl⟩ := xct_of_chainNext hx
  rw [hd]
  simp only [runOuter, dispatchAt]
  rw [xctAt_of_longer p (s := (s.setMa s.pc).setIr _) (m := s.mem) rfl hx']

/-- All a step can do. -/
theorem stepWith_cases (p : Params) {s t : State} (h : stepWith p s = .next t) :
    s.hlt = false ∧
      ((∃ n y, n ≤ p.xctDepthLimit ∧ ChainEnds s.mem s.pc n y ∧ t = chainEffect p s n y) ∨
        ((chainAt s.mem s.pc (p.xctDepthLimit + 1)).isSome = true ∧ t = s.stop .xctCycle)) := by
  have hh : s.hlt = false := by
    by_contra hne
    rw [stepWith_halted p (by simpa using hne)] at h
    cases h
  refine ⟨hh, ?_⟩
  obtain ⟨n, y, hn, hc⟩ | hc := chain_ends_or_longer s.mem s.pc p.xctDepthLimit
  · rw [stepWith_of_chainEnds p hh hc hn] at h
    exact .inl ⟨n, y, hn, hc, by simpa using h.symm⟩
  · rw [stepWith_of_longer p hh hc] at h
    exact .inr ⟨hc, by simpa using h.symm⟩

end Sys2Proof.Machine
end

