-- ==== Sys2Proof/Laws/PerInstr.lean ====
section
/-! SUPPORT. Statements made per instruction, one lemma a constructor.  The family `EncodeFields`:
the word of an instruction carries its opcode, indirect bit and address (`spec/30_encoding.md` R63). -/

namespace Sys2Proof.Laws.EncodeFields

/-- The three fields of the word of `i` are those of `i`. -/
def Statement (i : Instr) : Prop :=
  opcodeField (encode i) = i.opcode ∧ indirectField (encode i) = i.indirect ∧
    addressField (encode i) = i.address

/-- The common proof: the fields are independent of the constructor. -/
theorem of_instr (i : Instr) : Statement i :=
  ⟨opcodeField_encodeFields .., indirectField_encodeFields .., addressField_encodeFields ..⟩

theorem undefined00 (ind : Bool) (a : Addr) : Statement (.undefined00 ind a) := of_instr _
theorem and (ind : Bool) (a : Addr) : Statement (.and ind a) := of_instr _
theorem ior (ind : Bool) (a : Addr) : Statement (.ior ind a) := of_instr _
theorem xor (ind : Bool) (a : Addr) : Statement (.xor ind a) := of_instr _
theorem xct (ind : Bool) (a : Addr) : Statement (.xct ind a) := of_instr _
theorem undefined05 (ind : Bool) (a : Addr) : Statement (.undefined05 ind a) := of_instr _
theorem undefined06 (ind : Bool) (a : Addr) : Statement (.undefined06 ind a) := of_instr _
theorem undefined07 (ind : Bool) (a : Addr) : Statement (.undefined07 ind a) := of_instr _
theorem lac (ind : Bool) (a : Addr) : Statement (.lac ind a) := of_instr _
theorem undefined11 (ind : Bool) (a : Addr) : Statement (.undefined11 ind a) := of_instr _
theorem dac (ind : Bool) (a : Addr) : Statement (.dac ind a) := of_instr _
theorem undefined13 (ind : Bool) (a : Addr) : Statement (.undefined13 ind a) := of_instr _
theorem undefined14 (ind : Bool) (a : Addr) : Statement (.undefined14 ind a) := of_instr _
theorem undefined15 (ind : Bool) (a : Addr) : Statement (.undefined15 ind a) := of_instr _
theorem undefined16 (ind : Bool) (a : Addr) : Statement (.undefined16 ind a) := of_instr _
theorem undefined17 (ind : Bool) (a : Addr) : Statement (.undefined17 ind a) := of_instr _
theorem undefined20 (ind : Bool) (a : Addr) : Statement (.undefined20 ind a) := of_instr _
theorem sub (ind : Bool) (a : Addr) : Statement (.sub ind a) := of_instr _
theorem undefined22 (ind : Bool) (a : Addr) : Statement (.undefined22 ind a) := of_instr _
theorem undefined23 (ind : Bool) (a : Addr) : Statement (.undefined23 ind a) := of_instr _
theorem undefined24 (ind : Bool) (a : Addr) : Statement (.undefined24 ind a) := of_instr _
theorem undefined25 (ind : Bool) (a : Addr) : Statement (.undefined25 ind a) := of_instr _
theorem undefined26 (ind : Bool) (a : Addr) : Statement (.undefined26 ind a) := of_instr _
theorem undefined27 (ind : Bool) (a : Addr) : Statement (.undefined27 ind a) := of_instr _
theorem undefined30 (ind : Bool) (a : Addr) : Statement (.undefined30 ind a) := of_instr _
theorem undefined31 (ind : Bool) (a : Addr) : Statement (.undefined31 ind a) := of_instr _
theorem undefined32 (ind : Bool) (a : Addr) : Statement (.undefined32 ind a) := of_instr _
theorem undefined33 (ind : Bool) (a : Addr) : Statement (.undefined33 ind a) := of_instr _
theorem undefined34 (ind : Bool) (a : Addr) : Statement (.undefined34 ind a) := of_instr _
theorem iot (ind : Bool) (a : Addr) : Statement (.iot ind a) := of_instr _
theorem undefined36 (ind : Bool) (a : Addr) : Statement (.undefined36 ind a) := of_instr _
theorem undefined37 (ind : Bool) (a : Addr) : Statement (.undefined37 ind a) := of_instr _

end Sys2Proof.Laws.EncodeFields
end

