-- ==== Sys2Proof/Tests/Slice0.lean ====
section
/-! SUPPORT. Tests and witnesses.  The words are written out bit by bit from the opcode map of
`spec/30_encoding.md` R65 and R66; the expected states are the spec's own vectors
(`spec/95_test_vectors.md` L1 and L2).  Each witness shows a concrete state that meets the hypotheses
of the statement it is named after. -/

namespace Sys2Proof.Tests
open Sys2Proof.Machine

/-- A reset state with these words in memory. -/
def start (ws : List (Addr × Word)) : State :=
  State.launch (ws.foldl (fun m e => m.write e.1 e.2) [])

/-- Whether the outcome is a next state that passes the check. -/
def next (o : Host.Outcome State Fault Refusal) (f : State → Bool) : Bool :=
  match o with
  | .next t => f t
  | _ => false

/-- The parameters of the vectors with a depth limit of their own. -/
def limited (k : Nat) (h : 1 ≤ k) : Params := ⟨Config.identityHook, k, h⟩

/-- The spec's example device (L2.7): AC + a, and (IO ^ (i << 17)) | a. -/
def exampleHook : IotHook := fun a i ac io =>
  (ac + a.setWidth 18, (io ^^^ ((BitVec.ofBool i).setWidth 18 <<< 17)) ||| a.setWidth 18)

/-! ## Decoding (L2.1 and the table's encodings) -/

theorem test_decode_and : decode 0b00001_0_000001010011#18 = .and false 0o123#12 := by decide
theorem test_decode_and_i : decode 0o031777#18 = .and true 0o1777#12 := by decide
theorem test_decode_ior : decode 0b00010_1_000000001000#18 = .ior true 0o10#12 := by decide
theorem test_decode_xor : decode 0b00011_0_111111111111#18 = .xor false 0o7777#12 := by decide
theorem test_decode_xct : decode 0b00100_0_000000010000#18 = .xct false 0o20#12 := by decide
theorem test_decode_lac : decode 0b01000_0_000001000000#18 = .lac false 0o100#12 := by decide
theorem test_decode_dac : decode 0b01010_1_000000001001#18 = .dac true 0o11#12 := by decide
theorem test_decode_sub : decode 0b10001_0_000001000001#18 = .sub false 0o101#12 := by decide
theorem test_decode_iot : decode 0b11101_1_000000111111#18 = .iot true 0o77#12 := by decide
theorem test_decode_undefined00 : decode 0b00000_1_000000000101#18 = .undefined00 true 0o5#12 := by decide
theorem test_decode_undefined05 : decode 0b00101_1_000000000101#18 = .undefined05 true 0o5#12 := by decide
theorem test_decode_undefined06 : decode 0b00110_1_000000000101#18 = .undefined06 true 0o5#12 := by decide
theorem test_decode_undefined07 : decode 0b00111_1_000000000101#18 = .undefined07 true 0o5#12 := by decide
theorem test_decode_undefined11 : decode 0b01001_1_000000000101#18 = .undefined11 true 0o5#12 := by decide
theorem test_decode_undefined13 : decode 0b01011_1_000000000101#18 = .undefined13 true 0o5#12 := by decide
theorem test_decode_undefined14 : decode 0b01100_1_000000000101#18 = .undefined14 true 0o5#12 := by decide
theorem test_decode_undefined15 : decode 0b01101_1_000000000101#18 = .undefined15 true 0o5#12 := by decide
theorem test_decode_undefined16 : decode 0b01110_1_000000000101#18 = .undefined16 true 0o5#12 := by decide
theorem test_decode_undefined17 : decode 0b01111_1_000000000101#18 = .undefined17 true 0o5#12 := by decide
theorem test_decode_undefined20 : decode 0b10000_1_000000000101#18 = .undefined20 true 0o5#12 := by decide
theorem test_decode_undefined22 : decode 0b10010_1_000000000101#18 = .undefined22 true 0o5#12 := by decide
theorem test_decode_undefined23 : decode 0b10011_1_000000000101#18 = .undefined23 true 0o5#12 := by decide
theorem test_decode_undefined24 : decode 0b10100_1_000000000101#18 = .undefined24 true 0o5#12 := by decide
theorem test_decode_undefined25 : decode 0b10101_1_000000000101#18 = .undefined25 true 0o5#12 := by decide
theorem test_decode_undefined26 : decode 0b10110_1_000000000101#18 = .undefined26 true 0o5#12 := by decide
theorem test_decode_undefined27 : decode 0b10111_1_000000000101#18 = .undefined27 true 0o5#12 := by decide
theorem test_decode_undefined30 : decode 0b11000_1_000000000101#18 = .undefined30 true 0o5#12 := by decide
theorem test_decode_undefined31 : decode 0b11001_1_000000000101#18 = .undefined31 true 0o5#12 := by decide
theorem test_decode_undefined32 : decode 0b11010_1_000000000101#18 = .undefined32 true 0o5#12 := by decide
theorem test_decode_undefined33 : decode 0b11011_1_000000000101#18 = .undefined33 true 0o5#12 := by decide
theorem test_decode_undefined34 : decode 0b11100_1_000000000101#18 = .undefined34 true 0o5#12 := by decide
theorem test_decode_undefined36 : decode 0b11110_1_000000000101#18 = .undefined36 true 0o5#12 := by decide
theorem test_decode_undefined37 : decode 0b11111_1_000000000101#18 = .undefined37 true 0o5#12 := by decide

/-- L1 item 1: 250011 is `DAC i 11`, and re-encoding gives it back. -/
theorem test_encode_dac : encode (.dac true 0o11#12) = 0o250011#18 := by decide

theorem test_table_word : decodeTableWord 18 0x22041 = some (.sub false 0o101#12) ∧
    decodeTableWord 24 0x40000 = none := by decide

/-! ## Well-formedness: each check refuses a term -/

theorem test_wf_refuses_opcode : RawInstr.wf ⟨32, 0, 0⟩ = false := by decide
theorem test_wf_refuses_indirect : RawInstr.wf ⟨8, 2, 0⟩ = false := by decide
theorem test_wf_refuses_address : RawInstr.wf ⟨8, 0, 4096⟩ = false := by decide
theorem test_wf_accepts_largest : RawInstr.wf ⟨31, 1, 4095⟩ = true := by decide
theorem test_memory_wf_refuses_order : Memory.wf [(2, 1#18), (1, 1#18)] = false := by decide
theorem test_memory_wf_refuses_unlisted : Memory.wf [(2, 0#18)] = false := by decide
theorem test_memory_wf_refuses_outside : Memory.wf [(4096, 1#18)] = false := by decide

/-! ## The instructions (L2.2 to L2.9) -/

theorem test_and : next (step { start [(0, 0o020100#18), (0o100, 0o777000#18)] with ac := 0o123456#18 })
    (fun t => t.ac = 0o123000#18 ∧ t.pc = 1 ∧ t.ma = 0o100 ∧ t.ir = 1) = true := by decide

theorem test_ior : next (step { start [(0, 0o040100#18), (0o100, 0o000077#18)] with ac := 0o123456#18 })
    (fun t => t.ac = 0o123477#18 ∧ t.ir = 2) = true := by decide

theorem test_xor : next (step { start [(0, 0o060100#18), (0o100, 0o777777#18)] with ac := 0o123456#18 })
    (fun t => t.ac = 0o654321#18 ∧ t.ir = 3) = true := by decide

theorem test_lac_indirect_ignores_high_bits :
    next (step (start [(0, 0o210100#18), (0o100, 0o770200#18), (0o200, 0o42#18)]))
      (fun t => t.ac = 0o42#18 ∧ t.ma = 0o200 ∧ t.pc = 1) = true := by decide

theorem test_lac_own_word_through_7777 : next (step (start [(0, 0o217777#18)]))
    (fun t => t.ac = 0o217777#18 ∧ t.ma = 0) = true := by decide

theorem test_dac_indirect :
    next (step { start [(0, 0o250100#18), (0o100, 0o200#18)] with ac := 7 })
      (fun t => t.mem.read 0o200 = 7 ∧ t.mem.read 0o100 = 0o200#18 ∧ t.ma = 0o200) = true := by decide

theorem test_dac_pointer_is_target :
    next (step { start [(5, 0o250005#18)] with ac := 0o1234#18, pc := 5 })
      (fun t => t.mem.read 5 = 0o1234#18 ∧ t.pc = 6 ∧ t.ma = 5) = true := by decide

theorem test_sub_overflow_is_set :
    next (step { start [(0, 0o420100#18), (0o100, 1)] with ac := 0o400000#18 })
      (fun t => t.ac = 0o377777#18 ∧ t.ov = true ∧ t.ma = 0o100 ∧ t.ir = 0o21) = true := by decide

theorem test_sub_keeps_overflow :
    next (step { start [(0, 0o420100#18), (0o100, 1)] with ac := 5, ov := true })
      (fun t => t.ac = 4 ∧ t.ov = true) = true := by decide

/-- Rows of L2.5. -/
theorem test_subtract_vectors : subtract 5 3 = 2 ∧ subtract 3 5 = 0o777775#18 ∧
    subtract 0o777777#18 0 = 0o777777#18 ∧ subtract 0 0o777777#18 = 0 ∧
    subtract 0o123456#18 0o654321#18 = 0o247134#18 ∧
    subtract 0o200000#18 0o600000#18 = 0o377777#18 := by decide

/-- Rows of L2.5: the column "OV set". -/
theorem test_overflow_vectors : ovCond 0o377777#18 0o777776#18 0o400000#18 = true ∧
    ovCond 0o377777#18 0o777777#18 0o377777#18 = false ∧
    ovCond 0o777777#18 0o400000#18 0o377777#18 = false := by decide

theorem test_iot_indirect_reads_nothing :
    next (step { start [(0o40, 0o730003#18)] with pc := 0o40, ac := 0o12#18, io := 0o34#18 })
      (fun t => t.ac = 0o12#18 ∧ t.io = 0o34#18 ∧ t.pc = 0o41 ∧ t.ma = 0o40 ∧ t.ir = 0o35) = true := by
  decide

/-- Step 3 of program P6: the hook call of an `IOT i 77`. -/
theorem test_iot_example_hook :
    next (execWith ⟨exampleHook, 1, le_rfl⟩ (.iot true 0o77#12)
        { State.reset with ac := 0o45#18, io := 3 })
      (fun t => t.ac = 0o144#18 ∧ t.io = 0o400077#18) = true := by decide

theorem test_undefined_halts_in_place :
    next (step { start [(3, 0o760400#18)] with pc := 3, ac := 1, io := 2, ma := 7, ir := 0o21 })
      (fun t => t.hlt ∧ !t.xf ∧ t.pc = 3 ∧ t.ac = 1 ∧ t.io = 2 ∧ t.ma = 3 ∧ t.ir = 0o37) = true := by
  decide

theorem test_zero_word_halts : next (step State.reset) (fun t => t.hlt ∧ t.ir = 0 ∧ t.pc = 0) = true := by
  decide

theorem test_halted_takes_no_step : step { State.reset with hlt := true } = .fault .halted ∧
    step { State.reset with hlt := true, xf := true } = .fault .faulted := ⟨rfl, rfl⟩

/-! ## XCT (L2.6) -/

theorem test_xct_of_lac :
    next (step (start [(0, 0o100020#18), (0o20, 0o200100#18), (0o100, 5)]))
      (fun t => t.ac = 5 ∧ t.pc = 1 ∧ t.ma = 0o100 ∧ t.ir = 0o10) = true := by decide

theorem test_xct_of_undefined :
    next (step (start [(0, 0o100020#18), (0o20, 0o760000#18)]))
      (fun t => t.hlt ∧ !t.xf ∧ t.pc = 1 ∧ t.ma = 0o20 ∧ t.ir = 0o37) = true := by decide

theorem test_xct_of_sub_at_7777 :
    next (step { start [(0o7777, 0o100020#18), (0o20, 0o420021#18), (0o21, 1)] with
        pc := 0o7777, ac := 0o400000#18 })
      (fun t => t.ac = 0o377777#18 ∧ t.ov ∧ t.pc = 0 ∧ t.ma = 0o21) = true := by decide

/-- The memory of the depth-2 rows. -/
def depthTwo : State :=
  { start [(0, 0o100020#18), (0o20, 0o100021#18), (0o21, 0o200100#18), (0o100, 0o11#18)] with
    ma := 0o1234, ir := 0o21 }

theorem test_xct_depth_two_limit_one : next (stepWith (limited 1 le_rfl) depthTwo)
    (fun t => decide (t = { depthTwo with hlt := true, xf := true })) = true := by decide

theorem test_xct_depth_two_limit_two : next (stepWith (limited 2 (by decide)) depthTwo)
    (fun t => t.ac = 0o11#18 ∧ t.pc = 1 ∧ t.ma = 0o100 ∧ t.ir = 0o10 ∧ !t.hlt) = true := by decide

/-- The trace of that step: three decodes along the chain. -/
theorem test_trace_depth_two : (stepTrace (limited 2 (by decide)) depthTwo).map
    (fun e => e.1.map (fun v => (v.depth, v.word))) =
      some [(0, 0o100020#18), (1, 0o100021#18), (2, 0o200100#18)] := by decide

/-- A word that has itself executed: R116 (a). -/
def selfXct : State := start [(0, 0o100000#18)]

theorem selfXct_chain : InfiniteChain selfXct.mem selfXct.pc := by
  intro n
  suffices h : chainAt selfXct.mem 0 n = some 0 by rw [show selfXct.pc = 0 from rfl, h]; rfl
  induction n with
  | zero => rfl
  | succ n ih => rw [chainAt, ih]; decide

/-- R116 (a), with the limit of 4095. -/
theorem test_xct_of_itself : step selfXct = .next { selfXct with hlt := true, xf := true } := by
  rw [step_eq_stepWith, stepWith_of_longer _ rfl (selfXct_chain _)]
  rfl

theorem test_fetch_word_runs : next (step (State.reset.withFetchWord 18 0o720003))
    (fun t => t.pc = 1 ∧ t.ir = 0o35) = true := by decide

/-! ## Witnesses of the statements' hypotheses -/

theorem witness_FieldTripleRoundTrip : RawInstr.wf ⟨0, 0, 4095⟩ = true := by decide

theorem witness_StepRunsFetchedInstruction : (start [(0, 0o200100#18)]).hlt = false ∧
    (start [(0, 0o200100#18)]).mem.read (start [(0, 0o200100#18)]).pc = encode (.lac false 0o100) := by
  decide

/-- Also of `ResetSatisfiesInvariant`. -/
theorem witness_inv (ws : List (Addr × Word)) (h : (start ws).mem.wf = true) : (start ws).Inv :=
  ⟨h, fun h => nomatch (show false = true from h)⟩

theorem selfXct_inv : selfXct.Inv := witness_inv _ (by decide)

/-- A state with Inv whose step sets XF: for `StepEnabledExactlyWhenNotHalted`,
`FinalStateRecordsItsCause`, `HaltFlagSetOnlyByStopEvents`, `PcAdvancesOncePerStep` and
`EveryStepKeepsInvariant`. -/
theorem witness_faulting_step : selfXct.Inv ∧ ∃ t, stepWith Config.params selfXct = .next t ∧
    t.hlt = true ∧ t.xf = true :=
  ⟨selfXct_inv, _, stepWith_of_longer _ rfl (selfXct_chain _), rfl, rfl⟩

/-- The same with XF clear: an undefined word fetched at PC. -/
theorem witness_halting_step : State.reset.Inv ∧ ∃ t, stepWith Config.params State.reset = .next t ∧
    t.hlt = true ∧ t.xf = false := by
  refine ⟨witness_inv [] rfl, _, rfl, ?_, ?_⟩ <;> decide

/-- And a step that ends in neither, at the top of memory: `PcAdvancesOncePerStep`. -/
theorem witness_running_step :
    ({ start [(0o7777, 0o720000#18)] with pc := 0o7777 } : State).Inv ∧
    next (step { start [(0o7777, 0o720000#18)] with pc := 0o7777 })
      (fun t => !t.hlt ∧ t.pc = 0) = true := by
  refine ⟨⟨by decide, fun h => absurd h (by decide)⟩, by decide⟩

theorem witness_halted_states : ({ State.reset with hlt := true } : State).hlt = true ∧
    ({ State.reset with hlt := true } : State).xf = false ∧
    ({ State.reset with hlt := true, xf := true } : State).xf = true := ⟨rfl, rfl, rfl⟩

/-- Two pointers that differ in every high bit. -/
theorem witness_EffectiveAddressIsOneLevel :
    (Memory.read [(1, 0o770200#18)] 1).toNat % 4096 = (Memory.read [(1, 0o000200#18)] 1).toNat % 4096 := by
  decide

theorem witness_XorResult :
    (start [(0o100, 0o777777#18)]).mem.read (effAddr false 0o100 (start [(0o100, 0o777777#18)]).mem) =
      dataMask := by decide

theorem witness_DacResult : (start [(0, 0o250100#18)]).mem.wf = true ∧
    (1 : Addr) ≠ effAddr true 0o100 (start [(0, 0o250100#18)]).mem := by decide

/-- A direct LAC and an indirect DAC that meet at 0200. -/
theorem witness_LoadThenDepositLeavesMemory : (start [(0o100, 0o200#18)]).mem.wf = true ∧
    effAddr false 0o200 (start [(0o100, 0o200#18)]).mem =
      effAddr true 0o100 (start [(0o100, 0o200#18)]).mem ∧
    next (exec (.lac false 0o200) (start [(0o100, 0o200#18)]))
      (fun t => next (exec (.dac true 0o100) t) (fun _ => true)) = true := by decide

theorem witness_SubResult_minus_zero : subtract 0o777777#18 0 = 0o777777#18 := by decide

/-- The three targets of an XCT: a memory-reference word, an IOT, an undefined word. -/
theorem witness_XctRunsTargetWord :
    (decode (Memory.read [(1, 0o420100#18)] (effAddr false 1 [(1, 0o420100#18)]))).opcode = 0o21#5 ∧
    (decode (Memory.read [(1, 0o720003#18)] (effAddr false 1 [(1, 0o720003#18)]))).opcode = 0o35#5 ∧
    (decode (Memory.read [] (effAddr false 1 []))).isUndefined = true := by decide

/-- A chain of two XCTs that ends at a LAC, an IOT or an undefined word, at the limit itself. -/
theorem witness_ChainEnds :
    ChainEnds depthTwo.mem depthTwo.pc 2 0o21 ∧ 2 ≤ (limited 2 (by decide)).xctDepthLimit ∧
    depthTwo.hlt = false ∧ (decode (depthTwo.mem.read 0o21)).opcode = 0o10#5 :=
  ⟨⟨by decide, by decide⟩, le_rfl, rfl, by decide⟩

theorem witness_ChainEnds_iot :
    ChainEnds (start [(0, 0o100020#18), (0o20, 0o720005#18)]).mem 0 1 0o20 ∧
    (decode ((start [(0, 0o100020#18), (0o20, 0o720005#18)]).mem.read 0o20)).opcode = 0o35#5 :=
  ⟨⟨by decide, by decide⟩, by decide⟩

theorem witness_NestedUndefinedHaltsPastXct :
    ChainEnds (start [(0, 0o100020#18)]).mem 0 1 0o20 ∧
    (decode ((start [(0, 0o100020#18)]).mem.read 0o20)).isUndefined = true :=
  ⟨⟨by decide, by decide⟩, by decide⟩

/-- A chain longer than its limit by one. -/
theorem witness_XctCycleExactlyBeyondLimit : depthTwo.hlt = false ∧ depthTwo.xf = false ∧
    (chainAt depthTwo.mem depthTwo.pc ((limited 1 le_rfl).xctDepthLimit + 1)).isSome = true ∧
    stepWith (limited 1 le_rfl) depthTwo = .next { depthTwo with hlt := true, xf := true } :=
  ⟨rfl, rfl, by decide, stepWith_of_longer _ rfl (by decide)⟩

/-- Both sides of the equivalence are met at once. -/
theorem witness_XctCycleExactlyOnInfiniteChains : 4095 ≤ Config.params.xctDepthLimit ∧
    selfXct.hlt = false ∧ selfXct.xf = false ∧ InfiniteChain selfXct.mem selfXct.pc ∧
    stepWith Config.params selfXct = .next { selfXct with hlt := true, xf := true } :=
  ⟨le_rfl, rfl, rfl, selfXct_chain, stepWith_of_longer _ rfl (selfXct_chain _)⟩

/-- The last row of L2.6 from address `k` up: `XCT k+1` at `k` and on, LAC at 7777, for `n` XCTs. -/
def ramp : Nat → Nat → Memory
  | k, 0 => [(k, 0o200000#18)]
  | k, n + 1 => (k, encode (.xct false (BitVec.ofNat 12 (k + 1)))) :: ramp (k + 1) n

theorem ramp_lookup {k n j : Nat} (h : j < n) :
    (ramp k n).lookup (k + j) = encode (.xct false (BitVec.ofNat 12 (k + j + 1))) := by
  induction n generalizing k j with
  | zero => omega
  | succ n ih =>
    cases j with
    | zero => simp [ramp, Memory.lookup]
    | succ j =>
      rw [ramp, Memory.lookup, if_neg (by omega), show k + (j + 1) = k + 1 + j by omega,
        ih (by omega)]

theorem ramp_last (k n : Nat) : (ramp k n).lookup (k + n) = 0o200000#18 := by
  induction n generalizing k with
  | zero => simp [ramp, Memory.lookup]
  | succ n ih =>
    rw [ramp, Memory.lookup, if_neg (by omega), show k + (n + 1) = k + 1 + n by omega, ih]

/-- The deepest finite chain, L2.6's last row: it ends after 4095 XCT words, which the limits 4095
and 4094 tell apart.  The bounds of all three clauses of `XctCycleExactlyOnInfiniteChains`. -/
theorem witness_ChainEnds_longest : ChainEnds (ramp 0 4095) 0 4095 0o7777 ∧
    (limited 4094 (by decide)).xctDepthLimit < 4095 := by
  have h : ∀ n ≤ 4095, chainAt (ramp 0 4095) 0 n = some (BitVec.ofNat 12 n) := by
    intro n hn
    induction n with
    | zero => rfl
    | succ n ih =>
      have hr : (ramp 0 4095).read (BitVec.ofNat 12 n) =
          encode (.xct false (BitVec.ofNat 12 (n + 1))) := by
        rw [Memory.read, BitVec.toNat_ofNat, Nat.mod_eq_of_lt (by omega)]
        simpa using ramp_lookup (k := 0) (n := 4095) (j := n) (by omega)
      have hd : decode ((ramp 0 4095).read (BitVec.ofNat 12 n)) =
          .xct false (BitVec.ofNat 12 (n + 1)) := by
        rw [hr, decode, encode, opcodeField_encodeFields, indirectField_encodeFields,
          addressField_encodeFields, instrOf_fields]
      rw [chainAt, ih (by omega), Option.bind_some, chainNext_of_xct hd]
      rfl
  refine ⟨⟨h 4095 le_rfl, ?_⟩, by decide⟩
  have hr : (ramp 0 4095).read 0o7777 = 0o200000#18 := ramp_last 0 4095
  have hd : decode 0o200000#18 = .lac false 0 := by decide
  simp only [chainNext, hr, hd]

theorem witness_LimitsFrom4095AreOneMachine :
    Config.params.iotHook = (limited 5000 (by decide)).iotHook ∧
    4095 ≤ Config.params.xctDepthLimit ∧ 4095 ≤ (limited 5000 (by decide)).xctDepthLimit :=
  ⟨rfl, le_rfl, by decide⟩

/-- A halted state on which an instruction is executed all the same, for the third clause of
`HaltFlagSetOnlyByStopEvents`; also of `StopIsFinal`. -/
theorem witness_exec_in_halted_state : ({ State.reset with hlt := true } : State).hlt = true ∧
    ∃ t, execWith Config.params (.lac false 0) { State.reset with hlt := true } = .next t :=
  ⟨rfl, _, rfl⟩

/-- A step that changes OV and one that starts with OV set. -/
theorem witness_OverflowFlagIsStickyAndSubsOwn :
    next (step { start [(0, 0o420100#18), (0o100, 1)] with ac := 0o400000#18 }) (·.ov) = true ∧
    next (step { start [(0, 0o200100#18)] with ov := true }) (·.ov) = true := by decide

/-- A step with a device that changes IO. -/
theorem witness_IoChangesOnlyThroughHook :
    next (stepWith ⟨exampleHook, 1, le_rfl⟩ (start [(0, 0o720003#18)])) (fun t => t.io = 3) = true := by
  decide

/-- Carry and no carry, at the boundary. -/
theorem witness_EndAroundCarrySum : (0o777776#18).toNat + (1#18).toNat ≤ 0o777777 ∧
    (0o777777#18).toNat + (1#18).toNat > 0o777777 := by decide

/-- The three cases of the subtraction laws, at the ends of the range. -/
theorem witness_SubtractionLaws : ovCond 0o377777#18 0 (subtract 0o377777#18 0) = false ∧
    (ovCond 0o377777#18 0o777776#18 (subtract 0o377777#18 0o777776#18) = true ∧
      val 0o377777#18 - val 0o777776#18 > 131071) ∧
    (ovCond 0o400000#18 1 (subtract 0o400000#18 1) = true ∧ val 0o400000#18 - val 1 < -131071) := by
  decide

theorem witness_SubtractionLaws_operands : (start [(0o100, 3)]).ac = (start [(0o200, 3)]).ac ∧
    (start [(0o100, 3)]).mem.read (effAddr false 0o100 (start [(0o100, 3)]).mem) =
      (start [(0o200, 3)]).mem.read (effAddr false 0o200 (start [(0o200, 3)]).mem) := by decide

theorem witness_MemoryWritesOverwriteAndCommute : Memory.wf [(3, 1#18), (4095, 2#18)] = true ∧
    (0 : Addr) ≠ 4095 := by decide

/-- Two memories that read alike: nothing written, and 0 written over. -/
theorem witness_MemoryWritesOverwriteAndCommute_alike :
    ((Memory.write [] 5 1).write 5 0).wf = true ∧
    ∀ a, Memory.read [] a = ((Memory.write [] 5 1).write 5 0).read a :=
  ⟨by decide, fun _ => rfl⟩

theorem witness_OnlyDepositWritesMemory :
    next (step { start [(0, 0o240100#18)] with ac := 7 })
      (fun t => t.ir = 0o12 ∧ t.mem.read t.ma = 7) = true := by decide

theorem witness_StoredWordIsFetchedNext : (start [(0, 0o240001#18)]).mem.wf = true ∧
    (start [(0, 0o240001#18)]).hlt = false ∧
    decode ((start [(0, 0o240001#18)]).mem.read 0) = .dac false 1 ∧
    effAddr false 1 (start [(0, 0o240001#18)]).mem = (start [(0, 0o240001#18)]).pc + 1 := by decide

/-- Two words over the top of memory. -/
theorem witness_LoaderPlacesConsecutiveWords : Memory.wf [] = true ∧ [1#18, 2#18].length ≤ 4096 ∧
    (Memory.load [] 0o7777 [1#18, 2#18]).read (0o7777 + BitVec.ofNat 12 1) = 2 := by decide

theorem witness_HookReachesOnlyAcAndIo :
    (⟨exampleHook, 4095, by decide⟩ : Params).xctDepthLimit = Config.params.xctDepthLimit ∧
    (∃ t, stepWith Config.params (start [(0, 0o720003#18)]) = .next t) ∧
    (∃ u, stepWith ⟨exampleHook, 4095, by decide⟩ (start [(0, 0o720003#18)]) = .next u) :=
  ⟨rfl, ⟨_, rfl⟩, ⟨_, rfl⟩⟩

theorem witness_UnknownDeviceAnswersAnyPair : (start [(0, 0o730003#18)]).hlt = false ∧
    decode ((start [(0, 0o730003#18)]).mem.read (start [(0, 0o730003#18)]).pc) = .iot true 3 := by decide

theorem witness_HostWriteChangesOnlyItsTarget : (start [(0, 1)]).mem.wf = true := by decide

theorem witness_TraceFollowsTheDecodes : ∃ t, stepWith (limited 2 (by decide)) depthTwo = .next t :=
  ⟨_, rfl⟩

theorem witness_FirstStepFetchesAddressZero :
    (start [(0, 0o200100#18)]).mem.read 0 = encode (.lac false 0o100) := by decide

/-- A run of one step, to an end; also of `RunHasAtMostOneEnd`. -/
theorem witness_RunsStayInInvariant : (start []).mem.wf = true ∧
    ∃ t, Reaches Config.params (start []) t ∧ t.hlt = true ∧ EndsNormally Config.params (start []) t := by
  refine ⟨rfl, _, .step .refl rfl, ?_, .step .refl rfl, ?_, ?_⟩ <;> decide

end Sys2Proof.Tests
end

