-- ==== Sys2Proof/Proofs/ChainLength.lean ====
section
/-! PROOF. An XCT chain that ends does so within 4095 XCT words, since no address of it comes twice
(`spec/42_execute.md` R114); so every depth limit of 4095 or more is one machine (R9). -/

namespace Sys2Proof.Machine

/-- A chain of `i + k` XCT words goes on, after `i` of them, as the chain of `k` from there. -/
theorem chainAt_add (m : Memory) (x : Addr) (i k : Nat) :
    chainAt m x (i + k) = (chainAt m x i).bind (fun z => chainAt m z k) := by
  induction k with
  | zero => simp [chainAt]
  | succ k ih => rw [← Nat.add_assoc, chainAt, ih, Option.bind_assoc]; rfl

/-- The chain after `k` more words depends only on where it stands. -/
theorem chainAt_add_congr {m : Memory} {x : Addr} {i j : Nat} (h : chainAt m x i = chainAt m x j)
    (k : Nat) : chainAt m x (i + k) = chainAt m x (j + k) := by
  rw [chainAt_add, h, ← chainAt_add]

/-- A chain that ends after `n` XCT words has at depths 0 to `n`, and at the `none` past its end,
values that differ: a value met twice would send the chain round, past its end. -/
theorem ChainEnds.chainAt_ne {m : Memory} {x y : Addr} {n i j : Nat} (h : ChainEnds m x n y)
    (hij : i < j) (hj : j ≤ n + 1) : chainAt m x i ≠ chainAt m x j := by
  intro heq
  have hend : chainAt m x (n + 1) = none := h.not_longer n.lt_succ_self
  have hround : chainAt m x (i + (n + 1 - j)) = none := by
    rw [chainAt_add_congr heq, Nat.add_sub_of_le hj, hend]
  have hsome : (chainAt m x (i + (n + 1 - j))).isSome = true :=
    chainAt_isSome_mono (by omega) (Option.isSome_iff_exists.mpr ⟨y, h.1⟩)
  simp [hround] at hsome

/-- R114: there are 4096 addresses, so a chain that ends does so within 4095 XCT words. -/
theorem ChainEnds.length_le {m : Memory} {x y : Addr} {n : Nat} (h : ChainEnds m x n y) :
    n ≤ 4095 := by
  have hinj : Function.Injective fun i : Fin (n + 2) => chainAt m x i := by
    intro i j heq
    obtain hij | hij | hij := lt_trichotomy i j
    · exact absurd heq (h.chainAt_ne hij (by omega))
    · exact hij
    · exact absurd heq.symm (h.chainAt_ne hij (by omega))
  have hcard := Fintype.card_le_of_injective _ hinj
  rw [Fintype.card_fin, Fintype.card_option,
    ← FinEnum.card_eq_fintypeCard, FinEnum.card_bitVec] at hcard
  omega

/-- R114: a chain ends within 4095 XCT words or never does. -/
theorem chain_ends_or_infinite (m : Memory) (x : Addr) :
    (∃ n y, n ≤ 4095 ∧ ChainEnds m x n y) ∨ InfiniteChain m x := by
  refine or_iff_not_imp_left.mpr fun hne k => ?_
  obtain ⟨n, y, -, hc⟩ | hlong := chain_ends_or_longer m x k
  · exact absurd ⟨n, y, hc.length_le, hc⟩ hne
  · exact chainAt_isSome_mono k.le_succ hlong

/-- The hook is the one parameter a word that is no XCT looks at. -/
theorem leafAt_congr {p q : Params} (h : p.iotHook = q.iotHook) (i : Instr) (d : Nat) (s : State) :
    leafAt p i d s = leafAt q i d s := by
  cases i with
  | iot ind a => simp [leafAt, dispatchAt, iotAt, h]
  | _ => rfl

/-- So it is for a chain that ends. -/
theorem chainEffect_congr {p q : Params} (h : p.iotHook = q.iotHook) (s : State) (n : Nat)
    (y : Addr) : chainEffect p s n y = chainEffect q s n y := by
  simp only [chainEffect, leafAt_congr h]

/-- Settles O25: a step that is enabled runs a chain that ends, which is within both limits, or an
infinite one, which is beyond both. -/
theorem limitsFrom4095AreOneMachine : Obligations.LimitsFrom4095AreOneMachine := by
  intro p q s hhook hp hq
  cases hh : s.hlt with
  | true => rw [stepWith_halted p hh, stepWith_halted q hh]
  | false =>
    obtain ⟨n, y, hn, hc⟩ | hinf := chain_ends_or_infinite s.mem s.pc
    · rw [stepWith_of_chainEnds p hh hc (hn.trans hp), stepWith_of_chainEnds q hh hc (hn.trans hq),
        chainEffect_congr hhook]
    · rw [stepWith_of_longer p hh (hinf _), stepWith_of_longer q hh (hinf _)]

end Sys2Proof.Machine
end

