-- ==== Sys2Proof/Proofs/SignedValue.lean ====
section
/-! PROOF. Negation and the signed value of a word, as arithmetic on the word's number
(`spec/00_scope.md` R12, R14; `spec/44_arithmetic.md` R130). -/

namespace Sys2Proof.Machine

/-- Negation is the bitwise complement (R12). -/
theorem negate_eq_not (x : Word) : negate x = ~~~x := BitVec.xor_allOnes

theorem toNat_negate (x : Word) : (negate x).toNat = 262143 - x.toNat := by
  rw [negate_eq_not, BitVec.toNat_not]

/-- Bit 17 is set in the upper half of the words (R14). -/
theorem isNegative_iff (x : Word) : isNegative x = true ↔ 131072 ≤ x.toNat := by
  rw [isNegative, ← BitVec.msb_eq_getLsbD_last, BitVec.msb_eq_decide]
  exact decide_eq_true_iff

/-- A word of the lower half stands for its own number. -/
theorem val_of_lt {x : Word} (h : x.toNat < 131072) : val x = x.toNat :=
  if_neg (by rw [isNegative_iff]; omega)

/-- A word of the upper half stands for its number less 2^18 - 1. -/
theorem val_of_ge {x : Word} (h : 131072 ≤ x.toNat) : val x = x.toNat - 262143 := by
  have hx := x.isLt
  rw [val, if_pos ((isNegative_iff x).mpr h), toNat_negate]
  omega

/-- R130: negation changes the sign of the value. -/
theorem val_negate (x : Word) : val (negate x) = -val x := by
  have hx := x.isLt
  have hn := toNat_negate x
  obtain h | h := Nat.lt_or_ge x.toNat 131072
  · rw [val_of_lt h, val_of_ge (by omega)]; omega
  · rw [val_of_ge h, val_of_lt (by omega)]; omega

/-- R14: the range of the values. -/
theorem val_bounds (x : Word) : -131071 ≤ val x ∧ val x ≤ 131071 := by
  have hx := x.isLt
  obtain h | h := Nat.lt_or_ge x.toNat 131072
  · rw [val_of_lt h]; omega
  · rw [val_of_ge h]; omega

/-- R14: +0 and -0 are the words of value 0. -/
theorem val_eq_zero_iff (x : Word) : val x = 0 ↔ x = 0o000000#18 ∨ x = 0o777777#18 := by
  simp only [BitVec.toNat_eq, BitVec.toNat_ofNat]
  obtain h | h := Nat.lt_or_ge x.toNat 131072
  · rw [val_of_lt h]; omega
  · rw [val_of_ge h]; omega

/-- Settles O34, by the two halves of the words: bit 17 clear and bit 17 set. -/
theorem negationNegatesValue : Obligations.NegationNegatesValue := fun x =>
  ⟨negate_eq_not x, val_negate x, (val_bounds x).1, (val_bounds x).2, val_eq_zero_iff x⟩

end Sys2Proof.Machine
end

