-- ==== Sys2Proof/Proofs/StepEffect.lean ====
section
/-! PROOF. What a step leaves of each field, field by field: first for the word executed at the end
of an XCT chain (`leafAt`), then for the whole step (`chainEffect`).  The lemmas on `leafAt` hold of
an XCT too, for which it is the state itself. -/

namespace Sys2Proof.Machine

/-- Advance writes PC at most (R86). -/
theorem State.advance_eq (d : Nat) (s : State) :
    s.advance d = s.setPc (if d = 0 then s.pc + 1 else s.pc) := by
  cases d <;> rfl

/-! ## One word that is no XCT -/

section
variable (p : Params) (ind : Bool) (a : Addr) (d : Nat) (s : State)

@[simp] theorem leafAt_and : leafAt p (.and ind a) d s = ((s.setMa (effAddr ind a s.mem)).setAc
    (s.ac &&& s.mem.read (effAddr ind a s.mem))).advance d := andAt_eq ..

@[simp] theorem leafAt_ior : leafAt p (.ior ind a) d s = ((s.setMa (effAddr ind a s.mem)).setAc
    (s.ac ||| s.mem.read (effAddr ind a s.mem))).advance d := iorAt_eq ..

@[simp] theorem leafAt_xor : leafAt p (.xor ind a) d s = ((s.setMa (effAddr ind a s.mem)).setAc
    (s.ac ^^^ s.mem.read (effAddr ind a s.mem))).advance d := xorAt_eq ..

@[simp] theorem leafAt_lac : leafAt p (.lac ind a) d s = ((s.setMa (effAddr ind a s.mem)).setAc
    (s.mem.read (effAddr ind a s.mem))).advance d := lacAt_eq ..

@[simp] theorem leafAt_dac : leafAt p (.dac ind a) d s =
    ((s.setMem (s.mem.write (effAddr ind a s.mem) s.ac)).setMa
      (effAddr ind a s.mem)).advance d := dacAt_eq ..

@[simp] theorem leafAt_sub : leafAt p (.sub ind a) d s = (((s.setMa (effAddr ind a s.mem)).setOv
    (s.ov || ovCond s.ac (s.mem.read (effAddr ind a s.mem))
      (subtract s.ac (s.mem.read (effAddr ind a s.mem))))).setAc
    (subtract s.ac (s.mem.read (effAddr ind a s.mem)))).advance d := subAt_eq ..

@[simp] theorem leafAt_iot : leafAt p (.iot ind a) d s =
    ((s.setAc (p.iotHook a ind s.ac s.io).1).setIo
      (p.iotHook a ind s.ac s.io).2).advance d := iotAt_eq ..

end

section
variable (p : Params) (i : Instr) (d : Nat) (s : State)

/-- IR is the decode's to write, not the instruction's (R82). -/
@[simp] theorem leafAt_ir : (leafAt p i d s).ir = s.ir := by
  cases i with
  | and | ior | xor | lac | dac | sub | iot => simp [State.advance_eq]
  | _ => rfl

/-- XF is XctCycle's alone (R28). -/
@[simp] theorem leafAt_xf : (leafAt p i d s).xf = s.xf := by
  cases i with
  | and | ior | xor | lac | dac | sub | iot => simp [State.advance_eq]
  | _ => rfl

/-- HLT is kept where it was set, and set by an undefined word alone (R27, R160). -/
@[simp] theorem leafAt_hlt : (leafAt p i d s).hlt = (s.hlt || i.isUndefined) := by
  cases i with
  | and | ior | xor | lac | dac | sub | iot => simp [State.advance_eq, Instr.isUndefined]
  | xct => simp [leafAt, dispatchAt, Instr.isUndefined]
  | _ => exact (Bool.or_true _).symm

/-- The one write to memory, DAC's, keeps the canonical form (R45). -/
theorem leafAt_mem_wf (h : s.mem.wf = true) : (leafAt p i d s).mem.wf = true := by
  cases i with
  | dac ind a => simpa [State.advance_eq] using Memory.wf_write h (effAddr ind a s.mem) s.ac
  | and | ior | xor | lac | sub | iot => simpa [State.advance_eq] using h
  | _ => exact h

/-- OV is sticky (R26). -/
theorem leafAt_ov_of_ov (h : s.ov = true) : (leafAt p i d s).ov = true := by
  cases i with
  | and | ior | xor | lac | dac | sub | iot => simp [State.advance_eq, h]
  | _ => exact h

/-- OV is SUB's own (R26). -/
theorem leafAt_ov_of_ne (h : i.opcode ≠ 0o21#5) : (leafAt p i d s).ov = s.ov := by
  cases i with
  | sub => exact absurd rfl h
  | and | ior | xor | lac | dac | iot => simp [State.advance_eq]
  | _ => rfl

/-- IO is IOT's own (R22). -/
theorem leafAt_io_of_ne (h : i.opcode ≠ 0o35#5) : (leafAt p i d s).io = s.io := by
  cases i with
  | iot => exact absurd rfl h
  | and | ior | xor | lac | dac | sub => simp [State.advance_eq]
  | _ => rfl

/-- With no device attached an IOT answers the IO it was given (R151). -/
theorem leafAt_io_of_identityHook (h : p.iotHook = Config.identityHook) :
    (leafAt p i d s).io = s.io := by
  cases i with
  | iot => simp [State.advance_eq, h, Config.identityHook]
  | and | ior | xor | lac | dac | sub => simp [State.advance_eq]
  | _ => rfl

/-- The memory-reference words access Y last; the others access nothing (R24, R84). -/
theorem leafAt_ma : (leafAt p i d s).ma =
    if i.opcode ∈ [0o01#5, 0o02#5, 0o03#5, 0o10#5, 0o12#5, 0o21#5] then
      effAddr i.indirect i.address s.mem else s.ma := by
  cases i with
  | and | ior | xor | lac | dac | sub | iot =>
    simp [State.advance_eq, Instr.opcode, Instr.indirect, Instr.address]
  | _ => rfl

end

/-! ## The step -/

/-- A step is the word its chain ends at, started with MA and IR its address and opcode, but for PC,
which an outer XCT moves (R81, R82, R111). -/
theorem chainEffect_eq_setPc (p : Params) (s : State) (n : Nat) (y : Addr) :
    ∃ pc, chainEffect p s n y = (leafAt p (decode (s.mem.read y)) n
      ((s.setMa y).setIr (opcodeField (s.mem.read y)))).setPc pc := by
  cases n <;> exact ⟨_, rfl⟩

section
variable (p : Params) (s : State) (n : Nat) (y : Addr)

@[simp] theorem chainEffect_ir : (chainEffect p s n y).ir = opcodeField (s.mem.read y) := by
  obtain ⟨pc, h⟩ := chainEffect_eq_setPc p s n y
  simp [h]

@[simp] theorem chainEffect_xf : (chainEffect p s n y).xf = s.xf := by
  obtain ⟨pc, h⟩ := chainEffect_eq_setPc p s n y
  simp [h]

@[simp] theorem chainEffect_hlt :
    (chainEffect p s n y).hlt = (s.hlt || (decode (s.mem.read y)).isUndefined) := by
  obtain ⟨pc, h⟩ := chainEffect_eq_setPc p s n y
  simp [h]

theorem chainEffect_mem_wf (hm : s.mem.wf = true) : (chainEffect p s n y).mem.wf = true := by
  obtain ⟨pc, h⟩ := chainEffect_eq_setPc p s n y
  rw [h]
  exact leafAt_mem_wf p _ n _ hm

theorem chainEffect_ov_of_ov (ho : s.ov = true) : (chainEffect p s n y).ov = true := by
  obtain ⟨pc, h⟩ := chainEffect_eq_setPc p s n y
  rw [h]
  exact leafAt_ov_of_ov p _ n _ ho

theorem chainEffect_ov_of_ne (hw : opcodeField (s.mem.read y) ≠ 0o21#5) :
    (chainEffect p s n y).ov = s.ov := by
  obtain ⟨pc, h⟩ := chainEffect_eq_setPc p s n y
  rw [h]
  exact leafAt_ov_of_ne p _ n _ (by rwa [opcode_decode])

theorem chainEffect_io_of_ne (hw : opcodeField (s.mem.read y) ≠ 0o35#5) :
    (chainEffect p s n y).io = s.io := by
  obtain ⟨pc, h⟩ := chainEffect_eq_setPc p s n y
  rw [h]
  exact leafAt_io_of_ne p _ n _ (by rwa [opcode_decode])

theorem chainEffect_io_of_identityHook (hp : p.iotHook = Config.identityHook) :
    (chainEffect p s n y).io = s.io := by
  obtain ⟨pc, h⟩ := chainEffect_eq_setPc p s n y
  rw [h]
  exact leafAt_io_of_identityHook p _ n _ hp

theorem chainEffect_ma : (chainEffect p s n y).ma =
    if (decode (s.mem.read y)).opcode ∈ [0o01#5, 0o02#5, 0o03#5, 0o10#5, 0o12#5, 0o21#5] then
      effAddr (decode (s.mem.read y)).indirect (decode (s.mem.read y)).address s.mem else y := by
  obtain ⟨pc, h⟩ := chainEffect_eq_setPc p s n y
  rw [h]
  exact leafAt_ma p _ n _

end

/-- A step whose chain is known to end within the limit has that chain's effect. -/
theorem eq_chainEffect_of_stepWith {p : Params} {s t : State} {n : Nat} {y : Addr}
    (h : stepWith p s = .next t) (hc : ChainEnds s.mem s.pc n y) (hn : n ≤ p.xctDepthLimit) :
    t = chainEffect p s n y := by
  obtain ⟨hh, -⟩ := stepWith_cases p h
  simpa [stepWith_of_chainEnds p hh hc hn] using h.symm

end Sys2Proof.Machine
end

