-- ==== Sys2Proof/Proofs/Invariant.lean ====
section
/-! PROOF. The invariant of the machine, canonical memory and XF only with HLT (`spec/10_state.md`
R28, `spec/20_memory.md` R45): at reset, over a step and along a run. -/

namespace Sys2Proof.Machine

/-- Every step keeps the invariant: a word leaves memory canonical and XF alone, and XctCycle sets
XF with HLT. -/
theorem stepWith_inv {p : Params} {s t : State} (hs : s.Inv) (h : stepWith p s = .next t) :
    t.Inv := by
  obtain ⟨-, ⟨n, y, -, -, rfl⟩ | ⟨-, rfl⟩⟩ := stepWith_cases p h
  · refine ⟨chainEffect_mem_wf p s n y hs.memory, fun hx => ?_⟩
    rw [chainEffect_xf] at hx
    rw [chainEffect_hlt, hs.xf_hlt hx, Bool.true_or]
  · exact ⟨hs.memory, fun _ => rfl⟩

/-- A launch with a canonical image has the invariant (R190). -/
theorem launch_inv {mem0 : Memory} (h : mem0.wf = true) : (State.launch mem0).Inv where
  memory := h
  xf_hlt := nofun

/-- What holds of a state and is kept by every step holds of every state reached from it. -/
theorem Reaches.induct {p : Params} {s t : State} (P : State → Prop) (hs : P s)
    (hstep : ∀ u v, P u → stepWith p u = .next v → P v) (h : Reaches p s t) : P t := by
  induction h with
  | refl => exact hs
  | step _ hu ih => exact hstep _ _ ih hu

/-- So the invariant holds along a run. -/
theorem Reaches.inv {p : Params} {s t : State} (hs : s.Inv) (h : Reaches p s t) : t.Inv :=
  h.induct State.Inv hs fun _ _ => stepWith_inv

/-- From a state with HLT set, steps reach nothing but itself (R80). -/
theorem Reaches.eq_of_hlt {p : Params} {s t : State} (hs : s.hlt = true) (h : Reaches p s t) :
    t = s :=
  h.induct (· = s) rfl fun u v hu hv => by
    rw [hu, stepWith_halted p hs] at hv
    cases hv

/-- Settles O48, by the cases of a step. -/
theorem everyStepKeepsInvariant : Obligations.EveryStepKeepsInvariant :=
  ⟨fun _ _ _ => stepWith_inv, fun s _ hs h => stepWith_inv hs (step_eq_stepWith s ▸ h)⟩

/-- Settles O47: reset is the launch with nothing listed. -/
theorem resetSatisfiesInvariant : Obligations.ResetSatisfiesInvariant :=
  ⟨launch_inv Memory.wf_nil, fun _ => launch_inv⟩

/-- Settles O49, by induction along the run; XF comes with HLT, and HLT ends the run. -/
theorem runsStayInInvariant : Obligations.RunsStayInInvariant := by
  intro p mem0 t hm ht
  have hinv : t.Inv := ht.inv (launch_inv hm)
  exact ⟨hinv, fun hx _ hu => hu.eq_of_hlt (hinv.xf_hlt hx)⟩

end Sys2Proof.Machine
end

