-- ==== Sys2Proof/Proofs/SpecialRegisters.lean ====
section
/-! PROOF. Which steps write HLT, OV, IO, MA and IR (`spec/10_state.md` R22 to R27). -/

namespace Sys2Proof.Machine

/-- An XCT raises XctCycle or has the effect of the word its chain ends at (R110, R113). -/
theorem xctAt_cases (p : Params) (left : Nat) (ind : Bool) (a : Addr) (d : Nat) (s : State) :
    xctAt p left ind a d s = none ∨ ∃ n y, xctAt p left ind a d s =
      some ((leafAt p (decode (s.mem.read y)) (d + n + 1)
        ((s.setMa y).setIr (opcodeField (s.mem.read y)))).advance d) := by
  cases left with
  | zero => exact .inl rfl
  | succ left =>
    obtain ⟨n, y, hn, hc⟩ | hc := chain_ends_or_longer s.mem (effAddr ind a s.mem) left
    · exact .inr ⟨n, y, xctAt_of_chainEnds p rfl hc (Nat.lt_succ_of_le hn)⟩
    · exact .inl (xctAt_of_longer p rfl hc)

/-- No instruction clears HLT, nested or not (R27). -/
theorem dispatchAt_keeps_hlt {p : Params} {i : Instr} {left d : Nat} {s t : State}
    (hs : s.hlt = true)
    (h : dispatchAt p (fun ind a => xctAt p left ind a d) i d s = some t) : t.hlt = true := by
  by_cases hx : ∀ ind a, i ≠ .xct ind a
  · rw [dispatchAt_leaf p _ hx, Option.some.injEq] at h
    simp [← h, hs]
  · push Not at hx
    obtain ⟨ind, a, rfl⟩ := hx
    obtain hn | ⟨n, y, hn⟩ := xctAt_cases p left ind a d s
    · cases hn.symm.trans h
    · obtain rfl := Option.some.inj (hn.symm.trans h)
      simp [State.advance_eq, hs]

/-- So an instruction executed with HLT set leaves it set: what raises XctCycle sets it anyway. -/
theorem execWith_keeps_hlt {p : Params} {i : Instr} {s t : State} (hs : s.hlt = true)
    (h : execWith p i s = .next t) : t.hlt = true := by
  unfold execWith runOuter at h
  split at h
  · obtain rfl := Host.Outcome.next.inj h
    exact dispatchAt_keeps_hlt (s := (s.setMa s.pc).setIr i.opcode) hs ‹_›
  · obtain rfl := Host.Outcome.next.inj h
    rfl

/-- R27, R170: a step sets HLT exactly by one of the two stop events. -/
theorem stepWith_hlt_iff {p : Params} {s t : State} (h : stepWith p s = .next t) :
    t.hlt = true ↔
      (∃ n y, n ≤ p.xctDepthLimit ∧ ChainEnds s.mem s.pc n y ∧
        (decode (s.mem.read y)).isUndefined = true) ∨
      (chainAt s.mem s.pc (p.xctDepthLimit + 1)).isSome = true := by
  obtain ⟨hh, hcases⟩ := stepWith_cases p h
  constructor
  · intro ht
    obtain ⟨n, y, hn, hc, rfl⟩ | ⟨hc, -⟩ := hcases
    · exact .inl ⟨n, y, hn, hc, by simpa [hh] using ht⟩
    · exact .inr hc
  · rintro (⟨n, y, hn, hc, hu⟩ | hc)
    · simp [eq_chainEffect_of_stepWith h hc hn, hu]
    · obtain rfl := Host.Outcome.next.inj ((stepWith_of_longer p hh hc).symm.trans h)
      rfl

/-- Settles O27: the two stop events of a step, and no instruction that clears HLT. -/
theorem haltFlagSetOnlyByStopEvents : Obligations.HaltFlagSetOnlyByStopEvents := by
  refine ⟨State.launch_hlt, fun _ _ _ _ h => stepWith_hlt_iff h,
    fun _ _ _ _ hs h => execWith_keeps_hlt hs h, fun p s hs t h => ?_⟩
  rw [stepWith_halted p hs] at h
  cases h

/-- Settles O28: the word executed keeps OV unless it is a SUB, and XctCycle keeps it too. -/
theorem overflowFlagIsStickyAndSubsOwn : Obligations.OverflowFlagIsStickyAndSubsOwn := by
  refine ⟨fun _ => rfl, fun p s t h => ?_⟩
  obtain ⟨-, ⟨n, y, -, -, rfl⟩ | ⟨-, rfl⟩⟩ := stepWith_cases p h
  · refine ⟨chainEffect_ov_of_ov p s n y, fun hne => ?_⟩
    rw [chainEffect_ir]
    exact not_imp_comm.mp (chainEffect_ov_of_ne p s n y) hne
  · exact ⟨id, fun hne => absurd rfl hne⟩

/-- Settles O29: the word executed keeps IO unless it is an IOT, and even then where the hook is the
identity. -/
theorem ioChangesOnlyThroughHook : Obligations.IoChangesOnlyThroughHook := by
  refine ⟨fun p s t h hne => ?_, fun s t h => ?_⟩
  · obtain ⟨-, ⟨n, y, -, -, rfl⟩ | ⟨-, rfl⟩⟩ := stepWith_cases p h
    · rw [chainEffect_ir]
      exact not_imp_comm.mp (chainEffect_io_of_ne p s n y) hne
    · exact absurd rfl hne
  · rw [step_eq_stepWith] at h
    obtain ⟨-, ⟨n, y, -, -, rfl⟩ | ⟨-, rfl⟩⟩ := stepWith_cases Config.params h
    · exact chainEffect_io_of_identityHook Config.params s n y rfl
    · rfl

/-- Settles O30: MA and IR after the word the chain ends at. -/
theorem maAndIrHoldLastAccessAndDecode : Obligations.MaAndIrHoldLastAccessAndDecode := by
  intro p s t n y hc hn h
  obtain rfl := eq_chainEffect_of_stepWith h hc hn
  exact ⟨chainEffect_ir p s n y, chainEffect_ma p s n y⟩

end Sys2Proof.Machine
end

