-- ==== Sys2Proof/Proofs/MemoryContents.lean ====
section
/-! PROOF. Canonical memory as what its addresses read as: after writes (`spec/20_memory.md` R44,
R45, R50) and after the loader (R54, R43). -/

namespace Sys2Proof.Machine

/-- R45 at every address: a write changes what its own address reads as, and nothing else. -/
theorem Memory.read_write {m : Memory} (h : m.wf = true) (a b : Addr) (v : Word) :
    (m.write a v).read b = if b = a then v else m.read b := by
  split_ifs with hb
  · rw [hb, Memory.read_write_same h]
  · exact Memory.read_write_other m hb v

/-! ## Writes as equal data -/

/-- The last write at an address wins. -/
theorem Memory.write_write_same {m : Memory} (h : m.wf = true) (a : Addr) (v w : Word) :
    (m.write a v).write a w = m.write a w := by
  refine Memory.eq_of_read_eq (Memory.wf_write (Memory.wf_write h a v) a w)
    (Memory.wf_write h a w) fun x => ?_
  simp only [Memory.read_write, Memory.wf_write, h]
  split_ifs <;> rfl

/-- Writes at two addresses commute. -/
theorem Memory.write_comm {m : Memory} (h : m.wf = true) {a b : Addr} (hab : a ≠ b) (v w : Word) :
    (m.write a v).write b w = (m.write b w).write a v := by
  refine Memory.eq_of_read_eq (Memory.wf_write (Memory.wf_write h a v) b w)
    (Memory.wf_write (Memory.wf_write h b w) a v) fun x => ?_
  simp only [Memory.read_write, Memory.wf_write, h]
  split_ifs with hb ha
  · exact absurd (ha.symm.trans hb) hab
  all_goals rfl

/-- Writing what an address reads as changes nothing. -/
theorem Memory.write_read {m : Memory} (h : m.wf = true) (a : Addr) : m.write a (m.read a) = m := by
  refine Memory.eq_of_read_eq (Memory.wf_write h a _) h fun x => ?_
  rw [Memory.read_write h]
  split_ifs with hx
  · rw [hx]
  · rfl

/-- Settles O37: memories that read alike are equal, so the equations hold address by address. -/
theorem memoryWritesOverwriteAndCommute : Obligations.MemoryWritesOverwriteAndCommute := fun m h =>
  ⟨fun a v => ⟨Memory.read_write_same h a v, Memory.wf_write h a v⟩,
    fun _ _ v hb => Memory.read_write_other m hb v,
    fun _ hn heq => Memory.eq_of_read_eq h hn heq,
    Memory.write_write_same h,
    fun _ _ v w hab => Memory.write_comm h hab v w,
    Memory.write_read h⟩

/-! ## The loader -/

/-- Every address is `a + k` for one `k` below 4096, and the loader leaves there word `k`, or,
beyond the words, what stood there.  The first word survives the rest because its address is also
the one 4095 past the second word's, beyond all the words that follow. -/
theorem Memory.read_load {m : Memory} (h : m.wf = true) (a : Addr) {ws : List Word}
    (hlen : ws.length ≤ 4096) {k : Nat} (hk : k < 4096) :
    (m.load a ws).read (a + BitVec.ofNat 12 k) =
      ws.getD k (m.read (a + BitVec.ofNat 12 k)) := by
  induction ws generalizing m a k with
  | nil => rfl
  | cons w ws ih =>
    rw [List.length_cons] at hlen
    have hrest (j : Nat) (hj : j < 4096) := ih (Memory.wf_write h a w) (a + 1) (by omega) hj
    cases k with
    | zero =>
      have haddr : a + 1 + BitVec.ofNat 12 4095 = a + BitVec.ofNat 12 0 := by bv_omega
      have hfirst := hrest 4095 (by omega)
      rw [haddr, List.getD_eq_default _ _ (by omega), BitVec.add_zero,
        Memory.read_write_same h] at hfirst
      simpa [Memory.load] using hfirst
    | succ k =>
      have haddr : a + 1 + BitVec.ofNat 12 k = a + BitVec.ofNat 12 (k + 1) := by bv_omega
      have hne : a + BitVec.ofNat 12 (k + 1) ≠ a := by bv_omega
      have hnext := hrest k (by omega)
      rwa [haddr, Memory.read_write_other m hne] at hnext

/-- Settles O40: the two ranges of `k` in what the loaded memory reads as. -/
theorem loaderPlacesConsecutiveWords : Obligations.LoaderPlacesConsecutiveWords := by
  refine fun m a ws h hlen => ⟨Memory.wf_load h a ws, fun k hk => ?_, fun k hk hk' => ?_⟩
  · rw [Memory.read_load h a hlen (by omega), List.getD_eq_getElem _ _ hk]
  · rw [Memory.read_load h a hlen hk', List.getD_eq_default _ _ hk]

end Sys2Proof.Machine
end

