-- ==== Sys2Proof/Proofs/MemoryStores.lean ====
section
/-! PROOF. Which steps write memory, and that a stored word can be the next instruction
(`spec/20_memory.md` R45, R53; `spec/40_cycle.md` R87; `spec/43_load_store.md` R121). -/

namespace Sys2Proof.Machine

section
variable (p : Params) (i : Instr) (d : Nat) (s : State)

/-- Memory is DAC's own (R87). -/
theorem leafAt_mem_of_ne (h : i.opcode ≠ 0o12#5) : (leafAt p i d s).mem = s.mem := by
  cases i with
  | dac => exact absurd rfl h
  | and | ior | xor | lac | sub | iot => simp [State.advance_eq]
  | _ => rfl

/-- DAC writes AC at the address it leaves in MA (R121). -/
theorem leafAt_mem_of_dac (h : i.opcode = 0o12#5) :
    (leafAt p i d s).mem = s.mem.write (leafAt p i d s).ma s.ac := by
  cases i with
  | dac => simp [State.advance_eq]
  | _ => simp [Instr.opcode] at h

end

section
variable (p : Params) (s : State) (n : Nat) (y : Addr)

theorem chainEffect_mem_of_ne (hw : opcodeField (s.mem.read y) ≠ 0o12#5) :
    (chainEffect p s n y).mem = s.mem := by
  obtain ⟨pc, h⟩ := chainEffect_eq_setPc p s n y
  rw [h]
  exact leafAt_mem_of_ne p _ n _ (by rwa [opcode_decode])

theorem chainEffect_mem_of_dac (hw : opcodeField (s.mem.read y) = 0o12#5) :
    (chainEffect p s n y).mem = s.mem.write (chainEffect p s n y).ma s.ac := by
  obtain ⟨pc, h⟩ := chainEffect_eq_setPc p s n y
  rw [h]
  exact leafAt_mem_of_dac p _ n _ (by rwa [opcode_decode])

end

/-- A step leaves memory as it is, or it executes a DAC, which writes AC at MA (R87). -/
theorem stepWith_mem {p : Params} {s t : State} (h : stepWith p s = .next t) :
    t.mem = s.mem ∨ (t.ir = 0o12#5 ∧ t.mem = s.mem.write t.ma s.ac) := by
  obtain ⟨-, ⟨n, y, -, -, rfl⟩ | ⟨-, rfl⟩⟩ := stepWith_cases p h
  · rw [chainEffect_ir]
    by_cases hw : opcodeField (s.mem.read y) = 0o12#5
    · exact .inr ⟨hw, chainEffect_mem_of_dac p s n y hw⟩
    · exact .inl (chainEffect_mem_of_ne p s n y hw)
  · exact .inl rfl

/-- Settles O38: the one write of a step, and what its memory reads as after it. -/
theorem onlyDepositWritesMemory : Obligations.OnlyDepositWritesMemory := by
  intro p s t h
  obtain hm | ⟨hir, hm⟩ := stepWith_mem h
  · exact .inl hm
  · refine .inr ⟨hir, hm, ?_⟩
    rw [hm]
    exact ⟨fun x hx => Memory.read_write_other s.mem hx s.ac,
      fun hwf => Memory.read_write_same hwf t.ma s.ac⟩

/-- An enabled step is `exec` of the decoded word at PC (R81, R82). -/
theorem step_enabled {s : State} (h : s.hlt = false) : step s = exec (decode s.fetchWord) s := by
  simp [step, h]

/-- A fetched DAC: AC stored at Y, MA and IR by the store and the decode, PC moved (R121). -/
theorem exec_dac (ind : Bool) (a : Addr) (s : State) : exec (.dac ind a) s = .next
    { s with
      mem := s.mem.write (effAddr ind a s.mem) s.ac
      ma := effAddr ind a s.mem, ir := 0o12#5, pc := s.pc + 1 } := by
  cases ind <;> rfl

/-- Settles O39: DAC moves PC on to the word it has just stored. -/
theorem storedWordIsFetchedNext : Obligations.StoredWordIsFetchedNext := by
  intro s ind a hwf hh hd hy
  refine ⟨_, by rw [step_enabled hh, State.fetchWord, hd, exec_dac, hy], ?_⟩
  rw [step_enabled (by exact hh), State.fetchWord, Memory.read_write_same hwf]

end Sys2Proof.Machine
end

