-- ==== Sys2Proof/Proofs/Encoding.lean ====
section
/-! PROOF. The decoder and the encoder as inverse maps between words and instructions, and between
words and triples of numbers, by the shift formulas (`spec/30_encoding.md` R61 to R66). -/

namespace Sys2Proof

/-! ## The fields as numbers -/

theorem toNat_opcodeField (w : Word) : (opcodeField w).toNat = w.toNat >>> 13 := by
  have hw := w.isLt
  rw [opcodeField, BitVec.extractLsb'_toNat, Nat.shiftRight_eq_div_pow]
  exact Nat.mod_eq_of_lt (by omega)

theorem toNat_indirectField (w : Word) : (indirectField w).toNat = (w.toNat >>> 12) &&& 1 := by
  rw [indirectField, BitVec.getLsbD, Nat.testBit, Nat.and_comm]
  obtain h | h := Nat.mod_two_eq_zero_or_one (w.toNat >>> 12) <;> simp [h]

theorem toNat_addressField (w : Word) : (addressField w).toNat = w.toNat &&& 0xFFF := by
  rw [addressField, BitVec.extractLsb'_toNat, Nat.shiftRight_zero]
  exact (Nat.and_two_pow_sub_one_eq_mod w.toNat 12).symm

/-- The triple decoder of R62 gives the typed fields as numbers. -/
theorem decodeRaw_eq_fields (w : Word) :
    decodeRaw w = ⟨(opcodeField w).toNat, (indirectField w).toNat, (addressField w).toNat⟩ := by
  rw [toNat_opcodeField, toNat_indirectField, toNat_addressField, decodeRaw]

/-- Settles O1: the fields of the decoded instruction are the word's, as numbers. -/
theorem decoderFollowsShiftFormulas : Obligations.DecoderFollowsShiftFormulas := by
  intro w
  rw [opcode_decode, indirect_decode, address_decode]
  exact ⟨toNat_opcodeField w, toNat_indirectField w, toNat_addressField w, decodeRaw_eq_fields w⟩

/-! ## Instructions and words -/

/-- The formula of R63 on numbers: no field is cut off by the width of the word. -/
theorem toNat_encodeFields (op : Opcode) (ind : Bool) (a : Addr) :
    (encodeFields op ind a).toNat = (op.toNat <<< 13) ||| (ind.toNat <<< 12) ||| a.toNat := by
  have hop : op.toNat <<< 13 < 2 ^ 18 := by rw [Nat.shiftLeft_eq]; omega
  have hind : ind.toNat <<< 12 < 2 ^ 18 := by cases ind <;> decide
  simp only [encodeFields, BitVec.toNat_or, BitVec.toNat_shiftLeft, BitVec.toNat_ofBool,
    BitVec.toNat_setWidth_of_le (show 5 ≤ 18 by decide),
    BitVec.toNat_setWidth_of_le (show 1 ≤ 18 by decide),
    BitVec.toNat_setWidth_of_le (show 12 ≤ 18 by decide),
    Nat.mod_eq_of_lt hop, Nat.mod_eq_of_lt hind]

theorem decode_encode (i : Instr) : decode (encode i) = i := by
  obtain ⟨ho, hi, ha⟩ := Laws.EncodeFields.of_instr i
  rw [decode, ho, hi, ha, instrOf_fields]

/-- A word is the encoding of its three fields. -/
theorem encodeFields_fields (w : Word) :
    encodeFields (opcodeField w) (indirectField w) (addressField w) = w :=
  word_eq_of_fields (opcodeField_encodeFields ..) (indirectField_encodeFields ..)
    (addressField_encodeFields ..)

theorem encode_decode (w : Word) : encode (decode w) = w := by
  rw [encode, opcode_decode, indirect_decode, address_decode, encodeFields_fields]

/-- Settles O2: the opcode map is one to one, and a word is its three fields. -/
theorem decodeEncodeRoundTrip : Obligations.DecodeEncodeRoundTrip :=
  ⟨fun i => ⟨decode_encode i, toNat_encodeFields i.opcode i.indirect i.address⟩, encode_decode⟩

/-! ## Triples of numbers -/

theorem RawInstr.wf_iff (r : RawInstr) :
    r.wf = true ↔ r.opcode < 32 ∧ r.indirect < 2 ∧ r.address < 4096 := by
  simp only [wf, opcodeFits, indirectFits, addressFits, Bool.and_eq_true, decide_eq_true_eq,
    and_assoc]
  rfl

/-- The triples in range are those of three typed fields (R63). -/
theorem RawInstr.wf_iff_fields (r : RawInstr) :
    r.wf = true ↔
      ∃ (op : Opcode) (ind : Bool) (a : Addr), r = ⟨op.toNat, ind.toNat, a.toNat⟩ := by
  rw [wf_iff]
  constructor
  · obtain ⟨op, ind, a⟩ := r
    rintro ⟨hop : op < 32, hind : ind < 2, ha : a < 4096⟩
    refine ⟨⟨op, hop⟩, decide (ind = 1), ⟨a, ha⟩, ?_⟩
    obtain rfl | rfl : ind = 0 ∨ ind = 1 := by omega
    all_goals rfl
  · rintro ⟨op, ind, a, rfl⟩
    exact ⟨op.isLt, ind.toNat_lt, a.isLt⟩

/-- On typed fields the triple encoder is the typed one. -/
theorem encodeRaw_eq_encodeFields (op : Opcode) (ind : Bool) (a : Addr) :
    encodeRaw ⟨op.toNat, ind.toNat, a.toNat⟩ = encodeFields op ind a := by
  rw [encodeRaw, ← toNat_encodeFields, BitVec.ofNat_toNat, BitVec.setWidth_eq]

theorem decodeRaw_encodeFields (op : Opcode) (ind : Bool) (a : Addr) :
    decodeRaw (encodeFields op ind a) = ⟨op.toNat, ind.toNat, a.toNat⟩ := by
  rw [decodeRaw_eq_fields, opcodeField_encodeFields, indirectField_encodeFields,
    addressField_encodeFields]

/-- Settles O3: a triple in range is one of typed fields, on which the typed round trip holds. -/
theorem fieldTripleRoundTrip : Obligations.FieldTripleRoundTrip := by
  refine ⟨fun r hr => ?_, fun w => ⟨?_, ?_⟩⟩
  · obtain ⟨op, ind, a, rfl⟩ := r.wf_iff_fields.mp hr
    rw [encodeRaw_eq_encodeFields]
    exact ⟨decodeRaw_encodeFields op ind a, toNat_encodeFields op ind a⟩
  · exact (RawInstr.wf_iff_fields _).mpr ⟨_, _, _, decodeRaw_eq_fields w⟩
  · rw [decodeRaw_eq_fields, encodeRaw_eq_encodeFields, encodeFields_fields]

/-! ## The opcode map -/

/-- The 24 values of R66. -/
def undefinedOpcodes : List Nat :=
  [0o00, 0o05, 0o06, 0o07, 0o11, 0o13, 0o14, 0o15, 0o16, 0o17, 0o20, 0o22, 0o23,
    0o24, 0o25, 0o26, 0o27, 0o30, 0o31, 0o32, 0o33, 0o34, 0o36, 0o37]

/-- The undefined constructors are those of the 24 values (R66). -/
theorem Instr.isUndefined_iff (i : Instr) :
    i.isUndefined = true ↔ i.opcode.toNat ∈ undefinedOpcodes := by
  cases i <;> simp [Instr.isUndefined, Instr.opcode, undefinedOpcodes]

/-- A fetched undefined word halts in place: MA and IR are the fetch's and the decode's (R160,
R161). -/
theorem Machine.exec_of_isUndefined {i : Instr} (h : i.isUndefined = true) (s : Machine.State) :
    Machine.exec i s = .next { s with ma := s.pc, ir := i.opcode, hlt := true } := by
  cases i with
  | and | ior | xor | xct | lac | dac | sub | iot => cases h
  | _ => rfl

/-- Settles O4: the opcode map value by value, then the fetched undefined word. -/
theorem undefinedOpcodesAreTheTwentyFour : Obligations.UndefinedOpcodesAreTheTwentyFour := by
  refine fun w => ⟨?_, fun hu s hh hw => ?_⟩
  · rw [Instr.isUndefined_iff, opcode_decode, toNat_opcodeField]
    rfl
  · rw [Machine.step_enabled hh, Machine.State.fetchWord, hw, Machine.exec_of_isUndefined hu,
      opcode_decode]

/-- Settles O5, by running the decoder on the ten words. -/
theorem writtenOutWordsDecode : Obligations.WrittenOutWordsDecode := by
  unfold Obligations.WrittenOutWordsDecode
  decide

end Sys2Proof
end

