-- ==== Sys2Proof/Proofs/Cycle.lean ====
section
/-! PROOF. The instruction cycle: the effective address, when a step is enabled and what it executes,
and where it leaves PC (`spec/40_cycle.md` R80 to R88). -/

namespace Sys2Proof.Machine

/-! ## The effective address -/

/-- A pointer word is looked at modulo 4096 only (R83). -/
theorem addressField_congr {w w' : Word} (h : w.toNat % 4096 = w'.toNat % 4096) :
    addressField w = addressField w' := by
  apply BitVec.eq_of_toNat_eq
  rw [toNat_addressField, toNat_addressField, Nat.and_two_pow_sub_one_eq_mod _ 12,
    Nat.and_two_pow_sub_one_eq_mod _ 12]
  exact h

/-- Settles O9: what EA answers and writes in its two forms; the indirect one through the address
field of the pointer. -/
theorem effectiveAddressIsOneLevel : Obligations.EffectiveAddressIsOneLevel := by
  intro a s
  refine ⟨resolve_eq false a s, ?_, ?_, fun ind => ?_, fun m m' h => addressField_congr h⟩
  · rw [resolve_eq, effAddr_indirect, toNat_addressField]
  · rw [resolve_eq, if_pos rfl, State.setMa]
  · rw [resolve_eq]

/-! ## The enabled step -/

/-- No instruction faults or is refused (R175, R176). -/
theorem execWith_next (p : Params) (i : Instr) (s : State) : ∃ t, execWith p i s = .next t :=
  ⟨_, runOuter_next _ _ s⟩

/-- R80: HLT alone decides whether there is a next state. -/
theorem stepWith_next_iff (p : Params) (s : State) :
    (∃ t, stepWith p s = .next t) ↔ s.hlt = false := by
  constructor
  · rintro ⟨t, h⟩
    exact (stepWith_cases p h).1
  · intro h
    rw [stepWith_enabled p h]
    exact execWith_next p _ s

/-- Settles O6: the word at PC is decoded and executed, and decode undoes encode. -/
theorem stepRunsFetchedInstruction : Obligations.StepRunsFetchedInstruction := by
  intro s h
  refine ⟨fun i hi => ?_, step_enabled h, fun p => stepWith_enabled p h,
    fun i => exec_eq_execWith i s⟩
  rw [step_enabled h, State.fetchWord, hi, decode_encode]

/-- Settles O7: HLT decides, XF names the stop, and the invariant is kept. -/
theorem stepEnabledExactlyWhenNotHalted : Obligations.StepEnabledExactlyWhenNotHalted := by
  refine fun p s => ⟨stepWith_next_iff p s, fun hh hx => ?_, fun hh hx => ?_,
    fun t hs h => (stepWith_inv hs h).xf_hlt, step_eq_stepWith s⟩
  all_goals simp [stepWith_halted p hh, State.finalFault, hx]

/-! ## The PC advance -/

/-- Executed directly, a word that is no XCT advances PC unless it is undefined; nested, no word
does (R86, R111). -/
theorem leafAt_pc (p : Params) {i : Instr} (h : ∀ ind a, i ≠ .xct ind a) (d : Nat) (s : State) :
    (leafAt p i d s).pc = if d = 0 ∧ i.isUndefined = false then s.pc + 1 else s.pc := by
  cases i with
  | xct ind a => exact absurd rfl (h ind a)
  | and | ior | xor | lac | dac | sub | iot => simp [State.advance_eq, Instr.isUndefined]
  | _ => exact (if_neg fun hu => Bool.noConfusion hu.2).symm

/-- A chain with no XCT word ends where it starts. -/
theorem ChainEnds.eq_start {m : Memory} {x y : Addr} (h : ChainEnds m x 0 y) : y = x :=
  (Option.some.inj h.1).symm

/-- A chain with an XCT word starts at one. -/
theorem ChainEnds.start_xct {m : Memory} {x y : Addr} {n : Nat} (h : ChainEnds m x (n + 1) y) :
    ∃ ind a, decode (m.read x) = .xct ind a := by
  obtain ⟨hy, -⟩ := h
  rw [chainAt_succ] at hy
  obtain ⟨x', hx, -⟩ := Option.bind_eq_some_iff.mp hy
  obtain ⟨ind, a, hd, -⟩ := xct_of_chainNext hx
  exact ⟨ind, a, hd⟩

/-- From a state with the invariant, an enabled step starts with XF clear (R28). -/
theorem State.Inv.xf_eq_false {s : State} (hs : s.Inv) (hh : s.hlt = false) : s.xf = false :=
  Bool.eq_false_iff.mpr fun hx => Bool.eq_false_iff.mp hh (hs.xf_hlt hx)

/-- R86: the outer word moves PC by one, itself or as an XCT, unless it is undefined. -/
theorem chainEffect_pc (p : Params) {s : State} {n : Nat} {y : Addr}
    (hc : ChainEnds s.mem s.pc n y) :
    (chainEffect p s n y).pc =
      if (decode (s.mem.read s.pc)).isUndefined = true then s.pc else s.pc + 1 := by
  have hleaf := leafAt_pc p (not_xct_of_chainNext_none hc.2) n
    ((s.setMa y).setIr (opcodeField (s.mem.read y)))
  cases n with
  | zero =>
    obtain rfl := hc.eq_start
    rw [chainEffect, if_pos rfl, hleaf]
    cases (decode (s.mem.read s.pc)).isUndefined <;> rfl
  | succ n =>
    obtain ⟨ind, a, hd⟩ := hc.start_xct
    rw [chainEffect, if_neg n.succ_ne_zero, State.advance_zero, State.setPc_pc, hleaf, hd]
    simp [Instr.isUndefined]

/-- Settles O10: Advance, then the two cases of a step; XF is clear before it by the invariant. -/
theorem pcAdvancesOncePerStep : Obligations.PcAdvancesOncePerStep := by
  refine ⟨State.advance_eq, fun p s t hs h => ?_⟩
  obtain ⟨hh, ⟨n, y, -, hc, rfl⟩ | ⟨-, rfl⟩⟩ := stepWith_cases p h
  · rw [chainEffect_pc p hc, chainEffect_xf, hs.xf_eq_false hh]
    simp only [Bool.false_eq_true, false_or]
    split_ifs
    · rfl
    · exact BitVec.toNat_add s.pc 1
  · rfl

end Sys2Proof.Machine
end

