-- ==== Sys2Proof/Proofs/EndOfRun.lean ====
section
/-! PROOF. The end of a run: what a final state records, and that a run has at most one
(`spec/40_cycle.md` R92, R94). -/

namespace Sys2Proof.Machine

/-! ## The final state of a step -/

/-- An undefined word sets HLT and does nothing else (R160). -/
theorem leafAt_of_isUndefined (p : Params) {i : Instr} (h : i.isUndefined = true) (d : Nat)
    (s : State) : leafAt p i d s = s.setHlt true := by
  cases i with
  | and | ior | xor | xct | lac | dac | sub | iot => cases h
  | _ => rfl

/-- The halted state of R92: fetched, the undefined word leaves PC at itself; nested, PC is the
XCT's to advance (R112). -/
theorem chainEffect_of_isUndefined (p : Params) {s : State} {n : Nat} {y : Addr}
    (hc : ChainEnds s.mem s.pc n y) (hu : (decode (s.mem.read y)).isUndefined = true) :
    chainEffect p s n y =
      { s with hlt := true, ma := y, ir := opcodeField (s.mem.read y),
               pc := if n = 0 then y else s.pc + 1 } := by
  rw [chainEffect, leafAt_of_isUndefined p hu]
  cases n with
  | zero =>
    obtain rfl := hc.eq_start
    rfl
  | succ n => rfl

/-- Settles O26, by the cases of a step: the word the chain ends at leaves XF clear, as it was, and
XctCycle sets it. -/
theorem finalStateRecordsItsCause : Obligations.FinalStateRecordsItsCause := by
  intro p s t hs h hhlt
  obtain ⟨hh, ⟨n, y, -, hc, rfl⟩ | ⟨-, rfl⟩⟩ := stepWith_cases p h
  · have hu : (decode (s.mem.read y)).isUndefined = true := by simpa [hh] using hhlt
    refine ⟨fun _ => ⟨n, y, hc, hu, chainEffect_of_isUndefined p hc hu⟩, fun hx => ?_⟩
    rw [chainEffect_xf, hs.xf_eq_false hh] at hx
    cases hx
  · exact ⟨nofun, fun _ => rfl⟩

/-! ## The end of a run -/

/-- A run that goes anywhere makes its first step first. -/
theorem Reaches.eq_or_step {p : Params} {s t : State} (h : Reaches p s t) :
    t = s ∨ ∃ u, stepWith p s = .next u ∧ Reaches p u t := by
  induction h with
  | refl => exact .inl rfl
  | step _ hv ih =>
    obtain rfl | ⟨u, hu, hrun⟩ := ih
    · exact .inr ⟨_, hv, .refl⟩
    · exact .inr ⟨u, hu, hrun.step hv⟩

/-- Every state of a run leads to its end: a step is a function (R94), so both runs go the same
way, and no step leads past the end (R80). -/
theorem Reaches.reaches_end {p : Params} {s t u : State} (ht : Reaches p s t) (hend : t.hlt = true)
    (hu : Reaches p s u) : Reaches p u t := by
  refine hu.induct (Reaches p · t) ht fun v w hv hw => ?_
  obtain rfl | ⟨w', hw', hrun⟩ := hv.eq_or_step
  · rw [stepWith_halted p hend] at hw
    cases hw
  · obtain rfl := Host.Outcome.next.inj (hw.symm.trans hw')
    exact hrun

/-- Settles O32: each end leads to the other, and no step leaves an end. -/
theorem runHasAtMostOneEnd : Obligations.RunHasAtMostOneEnd := by
  intro p s t u ht hu hthlt huhlt
  have heq : t = u := (ht.reaches_end hthlt hu).eq_of_hlt huhlt
  refine ⟨heq, fun ⟨_, _, hclear⟩ ⟨_, hset⟩ => ?_⟩
  rw [← heq, hclear] at hset
  cases hset

end Sys2Proof.Machine
end

