-- ==== Sys2Proof/Proofs/Ports.lean ====
section
/-! PROOF. The ports of the machine: what the trace emits and what a host write changes
(`spec/40_cycle.md` R90, R91). -/

namespace Sys2Proof.Machine

/-! ## The trace -/

/-- After a word the decodes are those of the word it has executed, where there is one. -/
theorem decodeEvents_succ (m : Memory) (left : Nat) (x : Addr) (d : Nat) :
    decodeEvents m (left + 1) (m.read x) d = decodeEvent d (m.read x) ::
      ((chainNext m x).map fun x' => decodeEvents m left (m.read x') (d + 1)).getD [] := by
  rw [decodeEvents]
  cases h : chainNext m x with
  | none =>
    have hleaf := not_xct_of_chainNext_none h
    split
    next hx => exact absurd hx (hleaf _ _)
    next => rfl
  | some x' =>
    obtain ⟨ind, a, hd, rfl⟩ := xct_of_chainNext h
    rw [hd]
    rfl

/-- R91: event `k` is the decode, `k` levels deeper, of the `k`-th word of the chain, as far as the
chain goes and the levels that may start. -/
theorem getElem?_decodeEvents (m : Memory) (left : Nat) (x : Addr) (d k : Nat) :
    (decodeEvents m left (m.read x) d)[k]? =
      if k ≤ left then (chainAt m x k).map fun z => decodeEvent (d + k) (m.read z) else none := by
  induction left generalizing x d k with
  | zero => cases k <;> simp [decodeEvents, chainAt]
  | succ left ih =>
    rw [decodeEvents_succ]
    cases k with
    | zero => simp [chainAt]
    | succ k =>
      rw [List.getElem?_cons_succ, chainAt_succ]
      cases chainNext m x with
      | none => simp
      | some x' => simp [ih, Nat.add_right_comm d 1 k, Nat.add_assoc]

/-- The last event is that of the chain's word `n` where the chain or the levels end there. -/
theorem length_decodeEvents {m : Memory} {left n : Nat} {x : Addr} (hn : n ≤ left)
    (hc : (chainAt m x n).isSome = true) (hend : n + 1 ≤ left → chainAt m x (n + 1) = none)
    (d : Nat) : (decodeEvents m left (m.read x) d).length = n + 1 := by
  have hlast : n < (decodeEvents m left (m.read x) d).length := by
    rw [← not_le, ← List.getElem?_eq_none_iff, getElem?_decodeEvents, if_pos hn,
      Option.map_eq_none_iff]
    exact Option.isSome_iff_ne_none.mp hc
  have hpast : (decodeEvents m left (m.read x) d).length ≤ n + 1 := by
    rw [← List.getElem?_eq_none_iff, getElem?_decodeEvents]
    split_ifs with h
    · rw [hend h, Option.map_none]
    · rfl
  omega

/-- Settles O44: the events one by one, and how many there are in the two cases of a step. -/
theorem traceFollowsTheDecodes : Obligations.TraceFollowsTheDecodes := by
  intro p s t h
  refine ⟨decodeEvents s.mem p.xctDepthLimit (s.mem.read s.pc) 0, ?_, fun k hk => ?_,
    fun n y hc hn => ?_, fun hlong => ?_⟩
  · rw [stepTrace, h]
    rfl
  · have hev := List.getElem?_eq_getElem hk
    rw [getElem?_decodeEvents, Option.ite_none_right_eq_some,
      Option.map_eq_some_iff, Nat.zero_add] at hev
    obtain ⟨-, x, hx, hev⟩ := hev
    exact ⟨x, hx, hev.symm⟩
  · exact length_decodeEvents hn (Option.isSome_iff_exists.mpr ⟨y, hc.1⟩)
      (fun _ => hc.not_longer n.lt_succ_self) 0
  · exact length_decodeEvents le_rfl (chainAt_isSome_mono (Nat.le_succ _) hlong)
      (fun hlt => absurd hlt (Nat.not_succ_le_self _)) 0

/-! ## The host -/

/-- Settles O43: a word is written as any step writes one, the rest field by field. -/
theorem hostWriteChangesOnlyItsTarget : Obligations.HostWriteChangesOnlyItsTarget := by
  refine fun s h => ⟨fun a v => ⟨Memory.read_write_same h a v,
    fun _ hx => Memory.read_write_other s.mem hx v, Memory.wf_write h a v, rfl⟩, ?_⟩
  exact ⟨fun _ => rfl, fun _ => rfl, fun _ => rfl, fun _ => rfl, fun _ => rfl, fun _ => rfl,
    fun _ => rfl, fun _ => rfl⟩

end Sys2Proof.Machine
end

