-- ==== Sys2Proof/Proofs/Logical.lean ====
section
/-! PROOF. AND, IOR and XOR: the encoding, the effect at every depth and the whole next state
(`spec/41_logical.md` R100 to R102).  The lemmas before them are about any instruction: its word
under the opcode mask, and what it does as the outer instruction. -/

namespace Sys2Proof

/-- The table's mask keeps the opcode field and clears the other two (R61). -/
theorem and_opcodeMask (w : Word) : w &&& 0o760000#18 = encodeFields (opcodeField w) false 0 := by
  apply word_eq_of_fields
  · rw [opcodeField_encodeFields]
    exact BitVec.extractLsb'_and.trans BitVec.and_allOnes
  · rw [indirectField_encodeFields]
    exact BitVec.getLsbD_and.trans (Bool.and_false _)
  · rw [addressField_encodeFields]
    exact BitVec.extractLsb'_and.trans BitVec.and_zero

/-- Under the mask the word of an instruction shows its opcode alone, in place (R63, R65). -/
theorem encode_and_opcodeMask (i : Instr) :
    encode i &&& 0o760000#18 = i.opcode.setWidth 18 <<< 13 := by
  rw [and_opcodeMask, (Laws.EncodeFields.of_instr i).1]
  simp [encodeFields]

end Sys2Proof

namespace Sys2Proof.Machine

/-- As the outer instruction, one that is no XCT has its one effect at depth 0, after the fetch's
and the decode's writes of MA and IR (R81, R82). -/
theorem exec_of_not_xct {i : Instr} (h : ∀ ind a, i ≠ .xct ind a) (s : State) :
    exec i s = .next (leafAt Config.params i 0 ((s.setMa s.pc).setIr i.opcode)) := by
  rw [exec_eq_execWith, execWith, runOuter_next, dispatchAt_leaf _ _ h, Option.getD_some]

/-- What an instruction that loads AC from its operand writes: AC, MA, and PC at depth 0. -/
theorem State.advance_setAc_setMa (s : State) (y : Addr) (r : Word) (d : Nat) :
    ((s.setMa y).setAc r).advance d =
      { s with ac := r, ma := y, pc := if d = 0 then s.pc + 1 else s.pc } :=
  State.advance_eq d _

/-- Settles O11: the opcode under the mask, then the effect at depth d, and at depth 0 as `exec`. -/
theorem andResult : Obligations.AndResult := by
  refine fun ind a s => ⟨encode_and_opcodeMask (.and ind a), fun d => ?_, ?_⟩
  · rw [andAt_eq, State.advance_setAc_setMa]
  · rw [exec_of_not_xct (i := .and ind a) nofun, leafAt_and, State.advance_setAc_setMa]
    rfl

/-- Settles O12: the opcode under the mask, then the effect at depth d, and at depth 0 as `exec`. -/
theorem iorResult : Obligations.IorResult := by
  refine fun ind a s => ⟨encode_and_opcodeMask (.ior ind a), fun d => ?_, ?_⟩
  · rw [iorAt_eq, State.advance_setAc_setMa]
  · rw [exec_of_not_xct (i := .ior ind a) nofun, leafAt_ior, State.advance_setAc_setMa]
    rfl

/-- Settles O13: as for AND and IOR; negation is the XOR with 0o777777 by definition (R12). -/
theorem xorResult : Obligations.XorResult := by
  refine fun ind a s => ⟨encode_and_opcodeMask (.xor ind a), fun d => ?_, ?_,
    congrArg (s.ac ^^^ ·)⟩
  · rw [xorAt_eq, State.advance_setAc_setMa]
  · rw [exec_of_not_xct (i := .xor ind a) nofun, leafAt_xor, State.advance_setAc_setMa]
    rfl

end Sys2Proof.Machine
end

