-- ==== Sys2Proof/Proofs/XctTarget.lean ====
section
/-! PROOF. An XCT chain that ends: the effect of the word it ends at, nested, against the effect of
that word in line (`spec/42_execute.md` R110 to R112). -/

namespace Sys2Proof.Machine

/-! ## The XCT -/

/-- A word that is no XCT is a chain of its own. -/
theorem chainEnds_zero {m : Memory} {y : Addr} (h : ∀ ind a, decode (m.read y) ≠ .xct ind a) :
    ChainEnds m y 0 y := by
  refine ⟨rfl, Option.eq_none_iff_forall_ne_some.mpr fun z hz => ?_⟩
  obtain ⟨ind, a, hx, -⟩ := xct_of_chainNext hz
  exact h ind a hx

/-- An XCT is the first word of a chain, wherever it was fetched from: it has the effect of the word
that ends the chain of its target (R110). -/
theorem execWith_xct_of_chainEnds (p : Params) {ind : Bool} {a : Addr} {s : State} {n : Nat}
    {y : Addr} (hc : ChainEnds s.mem (effAddr ind a s.mem) n y) (hn : n < p.xctDepthLimit) :
    execWith p (.xct ind a) s = .next (chainEffect p s (n + 1) y) := by
  rw [execWith, runOuter_next, dispatchAt,
    xctAt_of_chainEnds p (s := (s.setMa s.pc).setIr _) (m := s.mem) rfl hc hn, Option.getD_some,
    Nat.zero_add, chainEffect, if_neg n.succ_ne_zero]
  rfl

/-- With the default limit, an XCT of a word that is no XCT has that word's effect at depth 1. -/
theorem exec_xct_of_target {ind : Bool} {a : Addr} {s : State}
    (h : ∀ ind' a', decode (s.mem.read (effAddr ind a s.mem)) ≠ .xct ind' a') :
    exec (.xct ind a) s = .next (chainEffect Config.params s 1 (effAddr ind a s.mem)) := by
  rw [exec_eq_execWith]
  exact execWith_xct_of_chainEnds Config.params (chainEnds_zero h) (by decide)

/-! ## A memory-reference word -/

/-- The opcodes of the words that access Y: AND, IOR, XOR, LAC, DAC and SUB (R65, R85). -/
def memoryReference : List Opcode := [0o01#5, 0o02#5, 0o03#5, 0o10#5, 0o12#5, 0o21#5]

/-- Such a word is defined, and no XCT. -/
theorem defined_of_memoryReference {i : Instr} (h : i.opcode ∈ memoryReference) :
    i.isUndefined = false ∧ ∀ ind a, i ≠ .xct ind a := by
  cases i with
  | and | ior | xor | lac | dac | sub => exact ⟨rfl, nofun⟩
  | _ => simp [Instr.opcode, memoryReference] at h

/-- A memory-reference word writes MA itself, whatever the fetch wrote; nested, it leaves the
advance of PC to the XCT, so at the end of any chain its effect is the one at depth 0 (R85, R111). -/
theorem chainEffect_of_memoryReference (p : Params) {s : State} {y : Addr} (n : Nat)
    (h : (decode (s.mem.read y)).opcode ∈ memoryReference) :
    chainEffect p s n y = leafAt p (decode (s.mem.read y)) 0
      ((s.setMa s.pc).setIr (opcodeField (s.mem.read y))) := by
  rw [chainEffect]
  cases hi : decode (s.mem.read y) with
  | and | ior | xor | lac | dac | sub => cases n <;> simp <;> rfl
  | _ => simp [hi, Instr.opcode, memoryReference] at h

/-- R111: at the end of any chain a memory-reference word gives the state it gives in line, and PC
moves by one. -/
theorem execWith_eq_chainEffect (p : Params) {s : State} {y : Addr} (n : Nat)
    (h : (decode (s.mem.read y)).opcode ∈ memoryReference) :
    execWith p (decode (s.mem.read y)) s = .next (chainEffect p s n y) ∧
      (chainEffect p s n y).pc = s.pc + 1 := by
  obtain ⟨hdef, hx⟩ := defined_of_memoryReference h
  rw [chainEffect_of_memoryReference p n h]
  constructor
  · rw [execWith, runOuter_next, dispatchAt_leaf _ _ hx, Option.getD_some, opcode_decode]
  · rw [leafAt_pc p hx, if_pos ⟨rfl, hdef⟩]
    rfl

/-! ## An IOT and an undefined word -/

/-- At the end of any chain an IOT has its hook call, with MA its own address (R150). -/
theorem chainEffect_of_iot (p : Params) {s : State} {y : Addr} (n : Nat)
    (h : (decode (s.mem.read y)).opcode = 0o35#5) :
    chainEffect p s n y =
      { s with
        ac := (p.iotHook (decode (s.mem.read y)).address (decode (s.mem.read y)).indirect
          s.ac s.io).1
        io := (p.iotHook (decode (s.mem.read y)).address (decode (s.mem.read y)).indirect
          s.ac s.io).2
        ma := y, ir := 0o35#5, pc := s.pc + 1 } := by
  rw [chainEffect, ← opcode_decode, h]
  cases hi : decode (s.mem.read y) with
  | iot ind a => cases n <;> rfl
  | _ => simp [hi, Instr.opcode] at h

/-- At the end of a chain of XCT words an undefined word halts, and the outer XCT moves PC (R112).
Where the first XCT was fetched from does not matter. -/
theorem chainEffect_succ_of_isUndefined (p : Params) {s : State} {y : Addr} (n : Nat)
    (h : (decode (s.mem.read y)).isUndefined = true) :
    chainEffect p s (n + 1) y =
      { s with hlt := true, ir := opcodeField (s.mem.read y), ma := y, pc := s.pc + 1 } := by
  rw [chainEffect, leafAt_of_isUndefined p h]
  rfl

/-! ## The statements -/

/-- Settles O20: an XCT of a word that is no XCT is a chain of one, by the three kinds of word. -/
theorem xctRunsTargetWord : Obligations.XctRunsTargetWord := by
  refine fun ind a s => ⟨fun hm => ?_, fun hi => ?_, fun hu => ?_⟩
  · obtain ⟨hexec, hpc⟩ := execWith_eq_chainEffect Config.params 1 hm
    exact ⟨_, exec_xct_of_target (defined_of_memoryReference hm).2,
      (exec_eq_execWith _ s).trans hexec, hpc⟩
  · rw [exec_xct_of_target (fun _ _ hx => by simp [hx, Instr.opcode] at hi),
      chainEffect_of_iot _ _ hi]
    rfl
  · rw [exec_xct_of_target (fun _ _ hx => by simp [hx, Instr.isUndefined] at hu),
      chainEffect_succ_of_isUndefined _ 0 hu, opcode_decode]

/-- Settles O21: the effect of a chain that ends, by the two kinds of defined word. -/
theorem xctChainRunsItsLastWord : Obligations.XctChainRunsItsLastWord := by
  refine fun p s n y hh hc hn => ⟨fun hm => ?_, fun hi => ?_⟩
  · obtain ⟨hexec, hpc⟩ := execWith_eq_chainEffect p n hm
    exact ⟨_, stepWith_of_chainEnds p hh hc hn, hexec, hpc⟩
  · rw [stepWith_of_chainEnds p hh hc hn, chainEffect_of_iot p n hi]

/-- Settles O22: a chain with an XCT word in it that ends at an undefined one. -/
theorem nestedUndefinedHaltsPastXct : Obligations.NestedUndefinedHaltsPastXct := by
  intro p s n y hh hc hpos hn hu
  obtain ⟨k, rfl⟩ := Nat.exists_eq_add_of_le' hpos
  refine ⟨_, stepWith_of_chainEnds p hh hc hn, ?_⟩
  rw [chainEffect_succ_of_isUndefined p k hu]
  exact ⟨rfl, BitVec.toNat_add s.pc 1⟩

end Sys2Proof.Machine
end

