-- ==== Sys2Proof/Proofs/XctCycle.lean ====
section
/-! PROOF. XctCycle is raised exactly where the chain is longer than the limit, so with a limit of
4095 or more exactly where it is infinite, and with a smaller one on some finite chain too
(`spec/42_execute.md` R113, R114). -/

namespace Sys2Proof.Machine

/-- R113: from a state with XF clear, only XctCycle answers one with XF set. -/
theorem stepWith_xctCycle_iff (p : Params) {s : State} (hh : s.hlt = false) (hx : s.xf = false) :
    stepWith p s = .next { s with hlt := true, xf := true } ↔
      (chainAt s.mem s.pc (p.xctDepthLimit + 1)).isSome = true := by
  refine ⟨fun h => ?_, stepWith_of_longer p hh⟩
  obtain ⟨-, ⟨n, y, -, -, ht⟩ | ⟨hc, -⟩⟩ := stepWith_cases p h
  · have hxf : true = s.xf := (congrArg State.xf ht).trans (chainEffect_xf p s n y)
    rw [hx] at hxf
    cases hxf
  · exact hc

/-- R114: a chain of more than 4095 XCT words is infinite. -/
theorem infiniteChain_iff {m : Memory} {x : Addr} {k : Nat} (hk : 4095 ≤ k) :
    InfiniteChain m x ↔ (chainAt m x (k + 1)).isSome = true := by
  refine ⟨fun h => h _, fun h => (chain_ends_or_infinite m x).resolve_left ?_⟩
  rintro ⟨n, y, hn, hc⟩
  simp [hc.not_longer (show n < k + 1 by omega)] at h

/-! ## A finite chain of any length up to 4095 -/

/-- The words of `n` XCTs at 0 and on, each of which executes the word after it. -/
def xctRun (n : Nat) : List Word :=
  (List.range n).map fun k => encode (.xct false (BitVec.ofNat 12 (k + 1)))

/-- Memory with these words alone: what follows them is unlisted. -/
def xctRunMemory (n : Nat) : Memory := Memory.load [] 0 (xctRun n)

/-- What the loaded memory reads as, address by address. -/
theorem read_xctRunMemory {n k : Nat} (hn : n ≤ 4095) (hk : k ≤ 4095) :
    (xctRunMemory n).read (BitVec.ofNat 12 k) = (xctRun n).getD k Memory.unlisted := by
  have hread := Memory.read_load Memory.wf_nil 0 (ws := xctRun n)
    (by simp [xctRun]; omega) (Nat.lt_succ_of_le hk)
  rwa [zero_add, Memory.read_nil] at hread

/-- Each of the XCTs leads to the next address. -/
theorem chainNext_xctRunMemory {n k : Nat} (hn : n ≤ 4095) (hk : k < n) :
    chainNext (xctRunMemory n) (BitVec.ofNat 12 k) = some (BitVec.ofNat 12 (k + 1)) := by
  refine chainNext_of_xct (ind := false) (a := BitVec.ofNat 12 (k + 1)) ?_
  rw [read_xctRunMemory hn (by omega), List.getD_eq_getElem _ _ (by simpa [xctRun] using hk)]
  simp [xctRun, decode_encode]

/-- After `n` XCTs the chain comes to the unlisted word, an undefined one. -/
theorem chainEnds_xctRunMemory {n : Nat} (hn : n ≤ 4095) :
    ChainEnds (xctRunMemory n) 0 n (BitVec.ofNat 12 n) := by
  have hat (k : Nat) (hk : k ≤ n) : chainAt (xctRunMemory n) 0 k = some (BitVec.ofNat 12 k) := by
    induction k with
    | zero => rfl
    | succ k ih => rw [chainAt, ih (by omega), Option.bind_some, chainNext_xctRunMemory hn hk]
  have hlast : (xctRunMemory n).read (BitVec.ofNat 12 n) = Memory.unlisted := by
    rw [read_xctRunMemory hn hn, List.getD_eq_default _ _ (by simp [xctRun])]
  have hstop : chainNext (xctRunMemory n) (BitVec.ofNat 12 n) = none := by
    rw [chainNext, hlast]
    rfl
  exact ⟨hat n le_rfl, hstop⟩

/-! ## The statements -/

/-- Settles O23: the chain is longer than the limit, and the default limit is 4095 by definition. -/
theorem xctCycleExactlyBeyondLimit : Obligations.XctCycleExactlyBeyondLimit :=
  ⟨fun p _ hh => ⟨stepWith_of_longer p hh, fun hx => (stepWith_xctCycle_iff p hh hx).mp⟩, rfl⟩

/-- Settles O24: past 4095 XCT words a chain is infinite; below that, the chain of one XCT word more
than the limit is finite. -/
theorem xctCycleExactlyOnInfiniteChains : Obligations.XctCycleExactlyOnInfiniteChains := by
  refine ⟨fun p s hp hh hx => ?_, fun _ _ _ _ hc => hc.length_le, fun p hp => ?_⟩
  · rw [stepWith_xctCycle_iff p hh hx, infiniteChain_iff hp]
  · have hends := chainEnds_xctRunMemory (n := p.xctDepthLimit + 1) hp
    refine ⟨State.launch (xctRunMemory (p.xctDepthLimit + 1)), _, _,
      launch_inv (Memory.wf_load Memory.wf_nil 0 _), rfl, hends, stepWith_of_longer p rfl ?_⟩
    exact Option.isSome_iff_exists.mpr ⟨_, hends.1⟩

end Sys2Proof.Machine
end

