-- ==== Sys2Proof/Proofs/LoadStore.lean ====
section
/-! PROOF. LAC and DAC: the encoding, the effect at every depth and the whole next state, and
the two in a row at one address (`spec/43_load_store.md` R120 to R122). -/

namespace Sys2Proof.Machine

/-- A fetched LAC: AC loaded from Y, MA and IR by the operand and the decode, PC moved (R120). -/
theorem exec_lac (ind : Bool) (a : Addr) (s : State) : exec (.lac ind a) s = .next
    { s with
      ac := s.mem.read (effAddr ind a s.mem)
      ma := effAddr ind a s.mem, ir := 0o10#5, pc := s.pc + 1 } := by
  rw [exec_of_not_xct (i := .lac ind a) nofun, leafAt_lac, State.advance_setAc_setMa]
  rfl

/-- Settles O16: LAC leaves memory as it was, so DAC resolves to the same Y and writes there what Y
reads as. -/
theorem loadThenDepositLeavesMemory : Obligations.LoadThenDepositLeavesMemory := by
  intro ind ind' a a' s hwf hy
  refine ⟨_, _, exec_lac ind a s, exec_dac ind' a' _, ?_, rfl⟩
  change s.mem.write (effAddr ind' a' s.mem) (s.mem.read (effAddr ind a s.mem)) = s.mem
  rw [hy, Memory.write_read hwf]

/-- Settles O14: the opcode under the mask, then the effect at depth d, and at depth 0 as `exec`. -/
theorem lacResult : Obligations.LacResult := by
  refine fun ind a s => ⟨encode_and_opcodeMask (.lac ind a), fun d => ?_, exec_lac ind a s⟩
  rw [lacAt_eq, State.advance_setAc_setMa]

/-- Settles O15: the opcode under the mask, the effect at depth d, and at depth 0 as `exec`; then
what memory reads as after the one write. -/
theorem dacResult : Obligations.DacResult := by
  refine fun ind a s => ⟨encode_and_opcodeMask (.dac ind a), fun d => ?_,
    _, exec_dac ind a s, rfl, ?_, ?_⟩
  · rw [dacAt_eq, State.advance_eq]
    rfl
  · exact fun x hx => Memory.read_write_other s.mem hx s.ac
  · exact fun hwf => ⟨Memory.read_write_same hwf _ s.ac, Memory.wf_write hwf _ s.ac⟩

end Sys2Proof.Machine
end

