-- ==== Sys2Proof/Proofs/Subtraction.lean ====
section
/-! PROOF. The end-around-carry sum, and ones'-complement subtraction by the words' numbers and by
their values (`spec/44_arithmetic.md` R131 to R134). -/

namespace Sys2Proof.Machine

/-! ## The end-around-carry sum -/

/-- The sum as the number R131 and R132 write: the remainder by 2^18 is the mask. -/
theorem endAroundSum_eq_ofNat (x y : Word) : endAroundSum x y = BitVec.ofNat 18
    (if x.toNat + y.toNat > 0o777777 then (x.toNat + y.toNat + 1) &&& 0o777777
      else x.toNat + y.toNat) := by
  rw [Nat.and_two_pow_sub_one_eq_mod _ 18, apply_ite (BitVec.ofNat 18)]
  rfl

theorem toNat_endAroundSum_of_le {x y : Word} (h : x.toNat + y.toNat ≤ 0o777777) :
    (endAroundSum x y).toNat = x.toNat + y.toNat := by
  rw [endAroundSum_eq_ofNat, if_neg (Nat.not_lt.mpr h), BitVec.toNat_ofNat]
  omega

theorem toNat_endAroundSum_of_gt {x y : Word} (h : x.toNat + y.toNat > 0o777777) :
    (endAroundSum x y).toNat = (x.toNat + y.toNat + 1) &&& 0o777777 := by
  rw [endAroundSum_eq_ofNat, if_pos h, BitVec.toNat_ofNat, Nat.and_two_pow_sub_one_eq_mod _ 18,
    Nat.mod_mod]

/-- With a carry the sum is one more, less the 2^18 carried out, and there is no second carry. -/
theorem toNat_endAroundSum_add_of_gt {x y : Word} (h : x.toNat + y.toNat > 0o777777) :
    (endAroundSum x y).toNat + 2 ^ 18 = x.toNat + y.toNat + 1 := by
  rw [toNat_endAroundSum_of_gt h, Nat.and_two_pow_sub_one_eq_mod _ 18]
  omega

/-- Settles O33, by whether the numbers' sum fits a word. -/
theorem endAroundCarrySum : Obligations.EndAroundCarrySum := fun _ _ =>
  ⟨toNat_endAroundSum_of_le,
    fun h => ⟨toNat_endAroundSum_of_gt h, toNat_endAroundSum_add_of_gt h⟩⟩

/-! ## The difference as a number -/

/-- R134: the complemented AC and the operand carry exactly when the operand is the greater. -/
theorem negate_add_carries_iff (a c : Word) : (negate a).toNat + c.toNat > 0o777777 ↔ a < c := by
  rw [toNat_negate, BitVec.lt_def]
  omega

theorem toNat_subtract_of_le {a c : Word} (h : c.toNat ≤ a.toNat) :
    (subtract a c).toNat = a.toNat - c.toNat := by
  have hsum := toNat_endAroundSum_of_le
    (Nat.not_lt.mp (mt (negate_add_carries_iff a c).mp (Nat.not_lt.mpr h)))
  rw [subtract, toNat_negate, hsum, toNat_negate]
  omega

theorem toNat_subtract_of_lt {a c : Word} (h : a.toNat < c.toNat) :
    (subtract a c).toNat = 262143 - (c.toNat - a.toNat) := by
  have hsum := toNat_endAroundSum_add_of_gt ((negate_add_carries_iff a c).mpr h)
  rw [toNat_negate] at hsum
  rw [subtract, toNat_negate]
  omega

theorem subtract_self (x : Word) : subtract x x = 0 :=
  BitVec.eq_of_toNat_eq ((toNat_subtract_of_le le_rfl).trans (Nat.sub_self _))

/-- The one difference that is -0 (R132). -/
theorem subtract_eq_minus_zero_iff (x c : Word) :
    subtract x c = 0o777777#18 ↔ x = 0o777777#18 ∧ c = 0 := by
  simp only [BitVec.toNat_eq, BitVec.ofNat_eq_ofNat, BitVec.toNat_ofNat]
  obtain h | h := Nat.lt_or_ge x.toNat c.toNat
  · rw [toNat_subtract_of_lt h]; omega
  · rw [toNat_subtract_of_le h]; omega

/-! ## The difference as a value -/

/-- R133 on the three signs. -/
theorem ovCond_iff (a c r : Word) :
    ovCond a c r = true ↔ isNegative a ≠ isNegative c ∧ isNegative r ≠ isNegative a := by
  rw [ovCond, Bool.and_eq_true, bne_iff_ne, bne_iff_ne]

/-- Negation flips the sign bit. -/
theorem isNegative_negate (x : Word) : isNegative (negate x) = !isNegative x := by
  rw [negate_eq_not]
  exact BitVec.getLsbD_not.trans (Bool.true_and _)

/-- R133 on the adder's operands and sum: the complements of AC and of the result. -/
theorem ovCond_iff_negate (a c r : Word) : ovCond a c r = true ↔
    isNegative (negate a) = isNegative c ∧ isNegative (negate r) ≠ isNegative (negate a) := by
  rw [ovCond_iff, isNegative_negate, isNegative_negate, Bool.not_eq, ne_eq (!_), Bool.not_inj_iff]

/-- R133 by the halves of the words that the operands and the result lie in. -/
theorem ovCond_iff_toNat (a c r : Word) : ovCond a c r = true ↔
    ¬ (131072 ≤ a.toNat ↔ 131072 ≤ c.toNat) ∧ ¬ (131072 ≤ r.toNat ↔ 131072 ≤ a.toNat) := by
  simp only [ovCond_iff, ← isNegative_iff, ne_eq, Bool.coe_iff_coe]

section
variable {a c : Word}

/-- The values of two words of one sign differ as their numbers do, so the difference is in range and
the result is exact. -/
theorem val_subtract_of_same_sign (h : 131072 ≤ a.toNat ↔ 131072 ≤ c.toNat) :
    val (subtract a c) = val a - val c := by
  have hdiff : val a - val c = (a.toNat : Int) - c.toNat := by
    obtain hc | hc := Nat.lt_or_ge c.toNat 131072
    · rw [val_of_lt hc, val_of_lt (by omega)]
    · rw [val_of_ge hc, val_of_ge (by omega)]; omega
  have ha := a.isLt
  have hc := c.isLt
  obtain hac | hac := Nat.lt_or_ge a.toNat c.toNat
  · have hr := toNat_subtract_of_lt hac
    rw [hdiff, val_of_ge (by omega)]; omega
  · have hr := toNat_subtract_of_le hac
    rw [hdiff, val_of_lt (by omega)]; omega

/-- A negative word from a positive one: the true difference is positive and is the result's
number, whether or not that is one of the lower half. -/
theorem toNat_subtract_of_pos_neg (ha : a.toNat < 131072) (hc : 131072 ≤ c.toNat) :
    ((subtract a c).toNat : Int) = val a - val c := by
  have hlt := c.isLt
  rw [toNat_subtract_of_lt (by omega), val_of_lt ha, val_of_ge hc]
  omega

/-- A positive word from a negative one: the true difference is negative, and is the result's
number less 2^18 - 1. -/
theorem toNat_subtract_of_neg_pos (ha : 131072 ≤ a.toNat) (hc : c.toNat < 131072) :
    ((subtract a c).toNat : Int) = val a - val c + 262143 := by
  rw [toNat_subtract_of_le (by omega), val_of_ge ha, val_of_lt hc]
  omega

end

/-- All that a subtraction can come to: the true difference without overflow; with overflow, one
above or below the range, wrapped by 2^18 - 1 (R133, R134). -/
theorem subtract_cases (a c : Word) :
    (ovCond a c (subtract a c) = false ∧ val (subtract a c) = val a - val c) ∨
    (ovCond a c (subtract a c) = true ∧ 131071 < val a - val c ∧
      val (subtract a c) = val a - val c - 262143) ∨
    (ovCond a c (subtract a c) = true ∧ val a - val c < -131071 ∧
      val (subtract a c) = val a - val c + 262143) := by
  by_cases hs : 131072 ≤ a.toNat ↔ 131072 ≤ c.toNat
  · exact .inl ⟨by simp [← Bool.not_eq_true, ovCond_iff_toNat, hs], val_subtract_of_same_sign hs⟩
  simp only [← Bool.not_eq_true, ovCond_iff_toNat]
  obtain ha | ha := Nat.lt_or_ge a.toNat 131072
  · have hdiff := toNat_subtract_of_pos_neg (c := c) ha (by omega)
    obtain hr | hr := Nat.lt_or_ge (subtract a c).toNat 131072
    · rw [val_of_lt hr]; omega
    · rw [val_of_ge hr]; omega
  · have hdiff := toNat_subtract_of_neg_pos (c := c) ha (by omega)
    obtain hr | hr := Nat.lt_or_ge (subtract a c).toNat 131072
    · rw [val_of_lt hr]; omega
    · rw [val_of_ge hr]; omega

/-- R133: overflow is a true difference that is no value of a word. -/
theorem ovCond_subtract_iff (a c : Word) : ovCond a c (subtract a c) = true ↔
    val a - val c < -131071 ∨ 131071 < val a - val c := by
  obtain ⟨hov, hval⟩ | ⟨hov, habove, -⟩ | ⟨hov, hbelow, -⟩ := subtract_cases a c
  · have hbounds := val_bounds (subtract a c)
    exact iff_of_false (by simp [hov]) (by omega)
  · exact iff_of_true hov (.inr habove)
  · exact iff_of_true hov (.inl hbelow)

section
variable {a c : Word}

/-- R134: without overflow the result is the true difference. -/
theorem val_subtract_of_not_ovCond (h : ovCond a c (subtract a c) = false) :
    val (subtract a c) = val a - val c := by
  have hrange := mt (ovCond_subtract_iff a c).mpr (Bool.eq_false_iff.mp h)
  have hcases := subtract_cases a c
  omega

/-- R134: a true difference above the range is wrapped down. -/
theorem val_subtract_of_gt (h : val a - val c > 131071) :
    val (subtract a c) = val a - val c - 262143 := by
  have hbounds := val_bounds (subtract a c)
  have hcases := subtract_cases a c
  omega

/-- R134: a true difference below the range is wrapped up. -/
theorem val_subtract_of_lt (h : val a - val c < -131071) :
    val (subtract a c) = val a - val c + 262143 := by
  have hbounds := val_bounds (subtract a c)
  have hcases := subtract_cases a c
  omega

/-- R134: a difference of value 0 is +0, but for the one that is -0. -/
theorem subtract_eq_zero_of_val (hval : val (subtract a c) = 0)
    (hne : ¬ (a = 0o777777#18 ∧ c = 0)) : subtract a c = 0 :=
  ((val_eq_zero_iff _).mp hval).resolve_right (mt (subtract_eq_minus_zero_iff a c).mp hne)

end

end Sys2Proof.Machine
end

