-- ==== Sys2Proof/Proofs/Arithmetic.lean ====
section
/-! PROOF. SUB: the encoding, the effect at every depth and the whole next state, and the laws of
its result (`spec/44_arithmetic.md` R132 to R134). -/

namespace Sys2Proof.Machine

/-- What SUB writes: AC, OV, MA, and PC at depth 0 (R132). -/
theorem subAt_eq_fields (ind : Bool) (a : Addr) (d : Nat) (s : State) : subAt ind a d s =
    { s with
      ac := subtract s.ac (s.mem.read (effAddr ind a s.mem))
      ov := s.ov || ovCond s.ac (s.mem.read (effAddr ind a s.mem))
        (subtract s.ac (s.mem.read (effAddr ind a s.mem)))
      ma := effAddr ind a s.mem
      pc := if d = 0 then s.pc + 1 else s.pc } := by
  rw [subAt_eq, State.advance_eq]
  rfl

/-- A fetched SUB: the same, with IR by the decode (R82, R132). -/
theorem exec_sub (ind : Bool) (a : Addr) (s : State) : exec (.sub ind a) s = .next
    { s with
      ac := subtract s.ac (s.mem.read (effAddr ind a s.mem))
      ov := s.ov || ovCond s.ac (s.mem.read (effAddr ind a s.mem))
        (subtract s.ac (s.mem.read (effAddr ind a s.mem)))
      ma := effAddr ind a s.mem
      ir := 0o21#5
      pc := s.pc + 1 } := by
  rw [exec_of_not_xct (i := .sub ind a) nofun, leafAt_sub, State.advance_eq]
  rfl

/-- Steps 1 to 4 of R132, on natural numbers. -/
theorem subtract_eq_ofNat (x c : Word) : subtract x c = BitVec.ofNat 18
    (if (x ^^^ 0o777777#18).toNat + c.toNat > 0o777777 then
        ((x ^^^ 0o777777#18).toNat + c.toNat + 1) &&& 0o777777
      else (x ^^^ 0o777777#18).toNat + c.toNat) ^^^ 0o777777#18 :=
  congrArg negate (endAroundSum_eq_ofNat (negate x) c)

/-- Settles O17: the opcode under the mask, the effect at depth d and as `exec`, with the result as
the four steps write it; then the zeros. -/
theorem subResult : Obligations.SubResult := by
  refine ⟨fun ind a s => ?_, subtract_self, subtract_eq_minus_zero_iff,
    BitVec.eq_of_toNat_eq (toNat_subtract_of_lt (by decide))⟩
  intro y c sum sum' r ov
  have hr : subtract s.ac c = r := subtract_eq_ofNat s.ac c
  refine ⟨?_, fun d => ?_, ?_⟩
  · rw [encode_and_opcodeMask, Instr.opcode]; decide
  · rw [subAt_eq_fields, hr]
  · rw [exec_sub, hr]

/-- Settles O35: the sign rule, by negation also on the adder's operands; the range, by the cases of
a subtraction; and OV as SUB writes it. -/
theorem overflowExactlyWhenOutOfRange : Obligations.OverflowExactlyWhenOutOfRange :=
  ⟨fun a c r => ⟨ovCond_iff a c r, ovCond_iff_negate a c r⟩, ovCond_subtract_iff,
    fun ind a s => ⟨_, exec_sub ind a s, rfl⟩⟩

/-- Settles O36: the carry, then the value in each case of a subtraction; and the result as a
function of the two operands. -/
theorem subtractionLaws : Obligations.SubtractionLaws := by
  refine ⟨fun a c => ⟨negate_add_carries_iff a c, fun hov => ?_, fun _ => val_subtract_of_gt,
    fun _ => val_subtract_of_lt⟩, fun ind ind' a a' s s' hac hread => ?_⟩
  · exact ⟨val_subtract_of_not_ovCond hov, subtract_eq_zero_of_val⟩
  · exact ⟨_, _, exec_sub ind a s, exec_sub ind' a' s', congrArg₂ subtract hac hread, rfl⟩

end Sys2Proof.Machine
end

