-- ==== Sys2Proof/Proofs/InputOutput.lean ====
section
/-! PROOF. IOT: the encoding, the effect at every depth and the whole next state; and how far a
device reaches, over a whole step (`spec/45_iot.md` R150, R151). -/

namespace Sys2Proof.Machine

/-! ## One IOT -/

/-- What IOT writes: AC and IO, and PC at depth 0 (R150). -/
theorem iotAt_eq_fields (p : Params) (ind : Bool) (a : Addr) (d : Nat) (s : State) :
    iotAt p ind a d s =
      { s with
        ac := (p.iotHook a ind s.ac s.io).1
        io := (p.iotHook a ind s.ac s.io).2
        pc := if d = 0 then s.pc + 1 else s.pc } := by
  rw [iotAt_eq, State.advance_eq]
  rfl

/-- A fetched IOT: the same, with MA by the fetch and IR by the decode (R81, R82, R150). -/
theorem execWith_iot (p : Params) (ind : Bool) (a : Addr) (s : State) :
    execWith p (.iot ind a) s = .next
      { s with
        ac := (p.iotHook a ind s.ac s.io).1
        io := (p.iotHook a ind s.ac s.io).2
        ma := s.pc, ir := 0o35#5, pc := s.pc + 1 } := by
  rw [execWith, runOuter_next, dispatchAt, iotAt_eq_fields]
  rfl

/-- Settles O18: the opcode under the mask, the effect at depth d and as the outer instruction; the
default hook answers AC and IO as they are. -/
theorem iotResult : Obligations.IotResult :=
  fun p ind a s => ⟨encode_and_opcodeMask (.iot ind a), fun d => iotAt_eq_fields p ind a d s,
    execWith_iot p ind a s, (exec_eq_execWith _ s).trans (execWith_iot Config.params ind a s)⟩

/-! ## The device -/

/-- A word that is no IOT does not look at the parameters (R151). -/
theorem leafAt_eq_of_not_iot (p q : Params) {i : Instr} (h : i.opcode ≠ 0o35#5) (d : Nat)
    (s : State) : leafAt p i d s = leafAt q i d s := by
  cases i with
  | iot => exact absurd rfl h
  | _ => rfl

/-- Nor does a step whose chain ends at such a word. -/
theorem chainEffect_eq_of_not_iot (p q : Params) {s : State} {y : Addr} (n : Nat)
    (h : (decode (s.mem.read y)).opcode ≠ 0o35#5) :
    chainEffect p s n y = chainEffect q s n y := by
  simp only [chainEffect, leafAt_eq_of_not_iot p q h]

/-- Settles O41, by the cases of a step: with one limit both steps are of the same case, and only at
the end of a chain, at an IOT, is a hook asked. -/
theorem hookReachesOnlyAcAndIo : Obligations.HookReachesOnlyAcAndIo := by
  intro p q s t u hlimit ht hu
  obtain ⟨hh, ⟨n, y, hn, hc, rfl⟩ | ⟨hlong, rfl⟩⟩ := stepWith_cases p ht
  · obtain rfl := eq_chainEffect_of_stepWith hu hc (hlimit ▸ hn)
    by_cases hi : (decode (s.mem.read y)).opcode = 0o35#5
    · rw [chainEffect_of_iot p n hi, chainEffect_of_iot q n hi]
      exact ⟨rfl, .inl ⟨n, y, hn, hc, opcode_decode _ ▸ hi⟩⟩
    · rw [chainEffect_eq_of_not_iot q p n hi]
      exact ⟨rfl, .inr rfl⟩
  · have hcycle := stepWith_of_longer q hh (hlimit ▸ hlong)
    obtain rfl : s.stop .xctCycle = u := Host.Outcome.next.inj (hcycle.symm.trans hu)
    exact ⟨rfl, .inr rfl⟩

/-- Settles O42: the drawn hook's answer is the pair, and a pair is the answer of the hook that
always gives it. -/
theorem unknownDeviceAnswersAnyPair : Obligations.UnknownDeviceAnswersAnyPair := by
  intro limit hlimit s t ind a hh hd
  have hstep (hook : IotHook) :
      stepWith ⟨hook, limit, hlimit⟩ s = execWith ⟨hook, limit, hlimit⟩ (.iot ind a) s := by
    rw [stepWith_enabled _ hh, State.fetchWord, hd]
  simp only [StepDraw, hstep, execWith_iot, Host.Outcome.next.injEq]
  constructor
  · rintro ⟨hook, rfl⟩
    exact ⟨_, _, rfl⟩
  · rintro ⟨v, w, rfl⟩
    exact ⟨fun _ _ _ _ => (v, w), rfl⟩

end Sys2Proof.Machine
end

/-! PROOF. The undefined opcodes: the encoding, the halt at every depth and the whole next state,
which is final (`spec/46_undefined.md` R160, R161). -/

namespace Sys2Proof.Machine

/-- As numbers, a word under the opcode mask is its opcode, 13 places up (R61, R160). -/
theorem toNat_encode_and_opcodeMask (i : Instr) :
    (encode i).toNat &&& 0o760000 = i.opcode.toNat * 2 ^ 13 := by
  have h := congrArg BitVec.toNat (encode_and_opcodeMask i)
  have hop : i.opcode.toNat < 32 := i.opcode.isLt
  rw [BitVec.toNat_and, BitVec.toNat_shiftLeft, BitVec.toNat_setWidth, Nat.shiftLeft_eq] at h
  refine h.trans ?_
  omega

/-- At every depth an undefined word sets HLT and does nothing else; it nests nothing (R160). -/
theorem dispatchAt_of_isUndefined (p : Params) (f : Bool → Addr → State → Option State) {i : Instr}
    (h : i.isUndefined = true) (d : Nat) (s : State) :
    dispatchAt p f i d s = some { s with hlt := true } := by
  have hx : ∀ ind a, i ≠ .xct ind a := by
    rintro ind a rfl
    cases h
  rw [dispatchAt_leaf p f hx, leafAt_of_isUndefined p h, State.setHlt]

/-- A state with HLT set has no next state (R80). -/
theorem step_ne_next_of_hlt {s : State} (h : s.hlt = true) (t : State) : step s ≠ .next t := by
  rw [step_eq_stepWith, stepWith_halted Config.params h]
  exact nofun

/-- Settles O19: each of the 24 is undefined, and an undefined word halts, at any depth and as the
outer instruction; the state it leaves has HLT set. -/
theorem undefinedOpcodesHalt : Obligations.UndefinedOpcodesHalt := by
  intro ind a s i hi
  have hu : i.isUndefined = true := List.all_eq_true.mp (by rfl) i hi
  have hexec := exec_of_isUndefined hu s
  refine ⟨hu, toNat_encode_and_opcodeMask i, fun p f d => dispatchAt_of_isUndefined p f hu d s,
    hexec, fun t u ht => ?_⟩
  obtain rfl := Host.Outcome.next.inj (hexec.symm.trans ht)
  exact step_ne_next_of_hlt rfl u

end Sys2Proof.Machine

/-! PROOF. No instruction raises anything, a stop is final for steps alone, and what a launch starts
from (`spec/60_exceptions.md` R174 to R176, `spec/70_reset_and_hazards.md` R190, R191). -/

namespace Sys2Proof.Machine

/-! ## Stops -/

/-- Settles O8: the frame of an outer instruction answers a next state, and `exec` is `execWith` at
the default parameters. -/
theorem everyInstructionAnswersNextState : Obligations.EveryInstructionAnswersNextState := by
  refine fun p i s => ⟨execWith_next p i s, ?_⟩
  rw [exec_eq_execWith]
  exact execWith_next Config.params i s

/-- Settles O31: no step leaves a state with HLT set; the host's write and a launch leave HLT clear,
which is all that a step needs. -/
theorem stopIsFinal : Obligations.StopIsFinal := by
  refine fun p s hs => ⟨fun t ht => ht.eq_of_hlt hs, ?_, fun mem0 => ?_⟩
  · exact (stepWith_next_iff p _).mpr (s.setHlt_hlt false)
  · exact (stepWith_next_iff p _).mpr (State.launch_hlt mem0)

/-! ## The launch -/

/-- The first fetch after a launch reads the image at address 0 (R191). -/
@[simp] theorem State.launch_fetchWord (mem0 : Memory) :
    (State.launch mem0).fetchWord = mem0.read 0 := by
  rw [State.fetchWord, State.launch_mem, State.launch_pc]

/-- Settles O45: a launch puts the image into the state that reset gives. -/
theorem resetZeroesEverythingButMemory : Obligations.ResetZeroesEverythingButMemory :=
  ⟨fun _ => rfl, rfl⟩

/-- Settles O46: a launch leaves HLT clear, so its first step executes the word it fetches; decode
undoes encode. -/
theorem firstStepFetchesAddressZero : Obligations.FirstStepFetchesAddressZero := by
  intro mem0
  have hstep : step (State.launch mem0) = exec (decode (mem0.read 0)) (State.launch mem0) := by
    rw [step_enabled (State.launch_hlt mem0), State.launch_fetchWord]
  refine ⟨hstep, fun i hi => ?_⟩
  rw [hstep, hi, decode_encode]

end Sys2Proof.Machine
